-- ==== Sys2Proof/Word.lean ====
section
/-! DEFINITION. The widths of the CORE's values: bytes, 16-bit words and 24-bit addresses (00_scope.md R7, R9). -/

namespace Sys2Proof

/-- An 8-bit value: a memory byte, an opcode, a bank byte, the status register P (R7). -/
abbrev Byte := BitVec 8

/-- A 16-bit value: a register cell, an offset within a bank, a word operand (R7). -/
abbrev Word := BitVec 16

/-- A 24-bit address: bank byte in bits 23:16, offset in bits 15:0 (R7, R41). -/
abbrev Address := BitVec 24

end Sys2Proof
end

