-- ==== Sys2Proof/Machine/Bits.lean ====
section
/-! DEFINITION. Byte order, the two views of a register cell, and address composition (00_scope.md R10, R11; 10_state.md R21;
20_memory.md R41, R44, R48). -/

namespace Sys2Proof.Machine

/-- The high byte `v[15:8]` of a word. -/
def hiByte (w : Word) : Byte := w.extractLsb' 8 8

/-- The low byte `v[7:0]` of a word: the low-byte view `lo(r)` of a register cell (R10). -/
def loByte (w : Word) : Byte := w.extractLsb' 0 8

/-- A word from its high and low byte, `(hi << 8) | lo` (R44, R62, R131). -/
def beWord (hi lo : Byte) : Word := (hi.setWidth 16 <<< 8) ||| lo.setWidth 16

/-- `setLow(r, b)`: `(reg[r] & 0xFF00) | b` (R10, R21). -/
def setLow (r : Word) (b : Byte) : Word := (r &&& 0xFF00#16) ||| b.setWidth 16

/-- `BankAddr(bank, off) = (zext_24(bank) << 16) | zext_24(off)` (R11, R41). -/
def bankAddr (bank : Byte) (off : Word) : Address := (bank.setWidth 24 <<< 16) ||| off.setWidth 24

end Sys2Proof.Machine
end

