-- ==== Sys2Proof/Config.lean ====
section
/-! DEFINITION. The parameters the spec leaves open (00_scope.md R8; the table "Open parameters" of 92_eei_decisions.md), with the
value the spec decides for each, and the one free value of this hardware, the cycle cost (70_reset_and_hazards.md R167). -/

namespace Sys2Proof

/-- The parameters that a step reads. They are plain data, so `State` carries them and every statement holds for every value of
them; no step changes them (assumption log 4). -/
structure Config where
  /-- `MEM_BYTES` (R8, R49; D14): addresses `0 .. memBytes - 1` are in range. -/
  memBytes : Nat
  /-- `LOAD_SETS_NZ` (R8, R116; D11): whether LDA and PLA write N and Z. -/
  loadSetsNZ : Bool
  deriving DecidableEq, Repr

/-- The spec's own values: the default capacity 2^24 and `LOAD_SETS_NZ = true` (R8). -/
def Config.baseline : Config := { memBytes := 2 ^ 24, loadSetsNZ := true }

/-- `INIT_PC` of `State.reset`. DESIGN CHOICE (assumption log 2): R8 and R33 leave the initial PC to the caller; unsafe. -/
def Config.initPC : Word := 0x0000#16

/-- `INIT_S` of `State.reset`. DESIGN CHOICE (assumption log 2): R8 and R33 leave the initial S to the caller; unsafe. -/
def Config.initS : Word := 0x0000#16

/-- The cycle cost of an opcode's descriptor: a free value, since R167 (D21) leaves it unspecified and no rule reads it
(assumption log 6); safe. -/
opaque Config.cycleCost : Byte → Nat

end Sys2Proof
end

