-- ==== Sys2Proof/Syntax.lean ====
section
/-! DEFINITION. The instructions of the CORE, one constructor per row of spec/opcode_table.json (30_encoding.md R64, R65), and the
domain of addressing modes (R72). -/

namespace Sys2Proof

/-- The `mode` field of a descriptor: the eleven resolved modes, and any mode value without a resolver (R72). -/
inductive Mode where
  | immediate
  | absolute
  | absoluteX
  | absoluteY
  | absoluteIndirect
  | absoluteIndirectX
  | accumulator
  | directPage
  | directPageX
  | directPageY
  | directPageIndirectX
  /-- A mode with no resolver, for example a 65C816 mode the source lists as unrealized (R72, R89; D19). -/
  | unresolved (name : String)
  deriving DecidableEq, Repr

/-- The instructions. A byte operand is byte 1 of the instruction; a word operand is bytes 1 and 2, high byte first (R61, R62). -/
inductive Instr where
  /-- 0x48, push accumulator (R133). -/
  | pha
  /-- 0x68, pull accumulator (R134). -/
  | pla
  /-- 0xA1, `LDA ($dp,X)` (R122). -/
  | ldaDpIndX (dp : Byte)
  /-- 0xA5, `LDA $dp` (R117). -/
  | ldaDp (dp : Byte)
  /-- 0xAD, `LDA $addr` (R118). -/
  | ldaAbs (addr : Word)
  /-- 0xB5, `LDA $dp,X` (R121). -/
  | ldaDpX (dp : Byte)
  /-- 0xB9, `LDA $addr,Y` (R120). -/
  | ldaAbsY (addr : Word)
  /-- 0xBD, `LDA $addr,X` (R119). -/
  | ldaAbsX (addr : Word)
  /-- 0xC2, `REP #$mask` (R110). -/
  | rep (mask : Byte)
  /-- 0xE2, `SEP #$mask` (R111). -/
  | sep (mask : Byte)
  /-- 0xEA, the halt opcode, spelled `NOP` (R65, R107). -/
  | nop
  deriving DecidableEq, Repr

/-- What an opcode byte says of the bytes after it: none, one operand byte, or one big-endian operand word (R60, R61). -/
inductive Shape where
  | bare (i : Instr)
  | byteOperand (mk : Byte → Instr)
  | wordOperand (mk : Word → Instr)

/-- Why the decoder rejects a sequence of bytes. -/
inductive DecodeError where
  /-- There is no byte to read an opcode from. -/
  | noBytes
  /-- The opcode byte is illegal (R66). -/
  | unknownOpcode (op : Byte)
  /-- The opcode is legal and its operand bytes are missing. -/
  | truncated (op : Byte)
  deriving DecidableEq, Repr

end Sys2Proof
end

