-- ==== Sys2Proof/Machine/State.lean ====
section
/-! DEFINITION. The state of the CORE and its memory (10_state.md R15 to R33; 20_memory.md R40), the ways a step stops, and reset
(70_reset_and_hazards.md R160). -/

namespace Sys2Proof.Machine

/-- The register file of R15, the contents of the external memory (R40, R43), and the parameters a step reads (R8). -/
structure State where
  /-- Accumulator (R16). -/
  A : Word
  /-- Index register X (R17). -/
  X : Word
  /-- Index register Y (R18). -/
  Y : Word
  /-- Stack pointer (R19). -/
  S : Word
  /-- Direct-page register (R20). -/
  D : Word
  /-- Program counter: offset within the program bank (R22). -/
  PC : Word
  /-- Data-bank register (R23). -/
  DBR : Byte
  /-- Program-bank register (R23). -/
  PBR : Byte
  /-- Status register: N bit 0, V 1, M 2, X 3, D 4, I 5, Z 6, C 7 (R24). -/
  P : Byte
  /-- Emulation-mode flag (R26). -/
  E : Bool
  /-- Break flag (R30). -/
  B : Bool
  /-- Memory contents in canonical form: addresses strictly rising, no entry equal to what an unlisted address reads as. -/
  mem : List Host.Cell
  /-- The parameters of R8 that a step reads; no step changes them (assumption log 4). -/
  cfg : Config
  deriving DecidableEq, Repr

/-- Why a step fails (R140). -/
inductive Fault where
  /-- Raised by `fetchInstr` and by the sequencer: the opcode has no table entry (R99, R141). No state changes. Safe: the spec
  itself ends the step here. -/
  | unknownOpcode (op : Byte)
  /-- Raised by the sequencer over a table that is not the baseline: the descriptor's mode has no resolver (R100, R142). No state
  changes. Safe: the spec itself ends the step here; unreachable with the baseline table. -/
  | unknownMode (mode : Mode)
  /-- Raised by `memRead1` and `memWrite1`, and so by any access: the address is not below `MEM_BYTES` (R49, R143). `left` is the
  state the failed step leaves: with the partial effects of R143's case (b) where there are any. Safe: the spec's own terminal
  outcome (D14). -/
  | memoryFault (addr : Address) (left : State)
  deriving DecidableEq, Repr

/-- Why the model gives a step no meaning. -/
inductive Refusal where
  /-- Raised only by `exec`, for an instruction without a meaning; every instruction has one, so no step answers it. Safe. -/
  | notModelled (mnemonic : String)
  deriving DecidableEq, Repr

/-- The state after hardware reset with the caller's `INIT_PC`, `INIT_S` and `INIT_MEM` and the given parameters (R33, R160, R162):
native mode, 16-bit widths, every field but PC and S zero. -/
def State.resetWith (c : Config) (initPC initS : Word) (image : List Host.Cell) : State :=
  { A := 0#16, X := 0#16, Y := 0#16, S := initS, D := 0#16, PC := initPC, DBR := 0#8, PBR := 0#8, P := 0#8
    E := false, B := false, mem := image, cfg := c }

/-- The machine right after reset: the spec's parameters (R8), nothing listed in memory, and the model's `INIT_PC` and `INIT_S`
(assumption log 2 and 3). -/
def State.reset : State := State.resetWith Config.baseline Config.initPC Config.initS []

end Sys2Proof.Machine
end

