-- ==== Sys2Proof/Machine/Ops.lean ====
section
/-! DEFINITION. The named operations over memory and registers: the memory store, the memory port (20_memory.md R40 to R55), the
writes of single registers, the PC advance (41_dispatch_step.md R102), and how an instruction ends a step. The CORE takes no
exception and returns from none: no failure saves state, changes a mode or transfers control (60_exceptions.md R145, R147); the one
shared operation of that kind is `outOfRange`, the end of a step by MemoryFault. -/

namespace Sys2Proof.Machine

/-- What an address that is not listed reads as. DESIGN CHOICE (assumption log 3): the spec gives unloaded bytes no value (R162);
unsafe. -/
def Memory.unlisted : Byte := 0x00#8

/-- The byte a memory holds at an address (R42). -/
def Memory.read : List Host.Cell → Nat → Byte
  | [], _ => Memory.unlisted
  | (k, w) :: rest, a => if k = a then w else Memory.read rest a

/-- Puts an entry at the front, unless it says what an unlisted address reads as. -/
def Memory.put (a : Nat) (v : Byte) (rest : List Host.Cell) : List Host.Cell :=
  if v = Memory.unlisted then rest else (a, v) :: rest

/-- The memory with one byte written (R43), in canonical form again. -/
def Memory.write : List Host.Cell → Nat → Byte → List Host.Cell
  | [], a, v => Memory.put a v []
  | (k, w) :: rest, a, v =>
    if a < k then Memory.put a v ((k, w) :: rest)
    else if k = a then Memory.put a v rest
    else (k, w) :: Memory.write rest a v

/-- The canonical form: addresses strictly rising, and no entry equal to what an unlisted address reads as. -/
abbrev Memory.wf (m : List Host.Cell) : Prop :=
  m.Pairwise (fun c d => c.1 < d.1) ∧ ∀ c ∈ m, c.2 ≠ Memory.unlisted

/-- The state with accumulator `v`. -/
def State.setA (s : State) (v : Word) : State := { s with A := v }

/-- The state with stack pointer `v`. -/
def State.setS (s : State) (v : Word) : State := { s with S := v }

/-- The state with program counter `v`. -/
def State.setPC (s : State) (v : Word) : State := { s with PC := v }

/-- The state with status register `v`. -/
def State.setP (s : State) (v : Byte) : State := { s with P := v }

/-- The state with memory contents `m`. -/
def State.setMem (s : State) (m : List Host.Cell) : State := { s with mem := m }

/-- Whether the memory port answers at an address (R49). -/
def inRange (s : State) (a : Address) : Bool := decide (a.toNat < s.cfg.memBytes)

/-- The byte the memory holds at a 24-bit address. -/
def byteAt (s : State) (a : Address) : Byte := Memory.read s.mem a.toNat

/-- Ends the step with `MemoryFault(addr)`, leaving the state as it is at this access (R12, R49, R143). -/
def outOfRange {α : Type} (a : Address) (s : State) : Except Fault α := .error (.memoryFault a s)

/-- `MemRead(a, 1)` (R11, R42). -/
def memRead1 (a : Address) (s : State) : Except Fault Byte :=
  if inRange s a then .ok (byteAt s a) else outOfRange a s

/-- The address after `a`: a flat 24-bit increment that carries into the bank and wraps at 2^24 (R45). -/
def nextAddr (a : Address) : Address := a + 1#24

/-- `MemRead(a, 2)`: big-endian, the high byte read first (R11, R44, R45). -/
def memRead2 (a : Address) (s : State) : Except Fault Word := do
  let hi ← memRead1 a s
  let lo ← memRead1 (nextAddr a) s
  return beWord hi lo

/-- `MemWrite(a, 1, v)` (R11, R43). -/
def memWrite1 (a : Address) (v : Byte) (s : State) : Except Fault State :=
  if inRange s a then .ok (s.setMem (Memory.write s.mem a.toNat v)) else outOfRange a s

/-- Places a byte from outside the machine, where the memory has a byte to hold it; used to stand for the host's load (R155). -/
def placeByte (a : Address) (v : Byte) (s : State) : State :=
  if inRange s a then s.setMem (Memory.write s.mem a.toNat v) else s

/-- `PC <- (PC + size) mod 2^16`; PBR does not change (R102). -/
def advancePC (size : Nat) (s : State) : State := s.setPC (s.PC + BitVec.ofNat 16 size)

/-- InstructionInfo: what the resolver hands to Execute, once per instruction; it does not survive a step (10_state.md R31). -/
structure Info where
  /-- The effective address. -/
  ea : Address
  /-- The auxiliary address, filled only by AbsoluteIndirectX (R14; D7). -/
  address : Address
  deriving DecidableEq, Repr

/-- Runs one instruction whose mode has been resolved: Execute runs once with the resolver's InstructionInfo, then PC advances by the
declared size (R96, R101, R102). A fault of either ends the step, and PC does not advance (R88, R143). -/
def complete (size : Nat) (resolved : Except Fault Info) (execute : Info → State → Except Fault State) (s : State) :
    Host.Outcome State Fault Refusal :=
  match resolved with
  | .error f => .fault f
  | .ok info =>
    match execute info s with
    | .error f => .fault f
    | .ok t => .next (advancePC size t)

end Sys2Proof.Machine
end

