-- ==== Sys2Proof/Machine/Halt.lean ====
section
/-! DEFINITION. The halt instruction, opcode 0xEA, spelled NOP (41_dispatch_step.md R98, R107). -/

namespace Sys2Proof.Machine

/-- `NOP`, the halt: nothing is written and PC does not advance (R107). The step that runs it reports Halted (`stepStatus`); the state
it leaves is the state before it, so a further step halts again (R106, R154; assumption log 1). -/
def execNop (s : State) : Host.Outcome State Fault Refusal := .next s

end Sys2Proof.Machine
end

