-- ==== Sys2Proof/Decode.lean ====
section
/-! DEFINITION. The opcode map (30_encoding.md R60 to R69; 41_dispatch_step.md R108), decoding of a byte sequence, the encoder, and
the reading of an opcode-table word. -/

namespace Sys2Proof

/-- The instruction shape an opcode byte selects: a total match over the 256 byte values whose default is "illegal"
(R64, R65, R66, R108). -/
def decodeOpcode (op : Byte) : Option Shape :=
  match op with
  | 0x48#8 => some (.bare .pha)
  | 0x68#8 => some (.bare .pla)
  | 0xA1#8 => some (.byteOperand .ldaDpIndX)
  | 0xA5#8 => some (.byteOperand .ldaDp)
  | 0xAD#8 => some (.wordOperand .ldaAbs)
  | 0xB5#8 => some (.byteOperand .ldaDpX)
  | 0xB9#8 => some (.wordOperand .ldaAbsY)
  | 0xBD#8 => some (.wordOperand .ldaAbsX)
  | 0xC2#8 => some (.byteOperand .rep)
  | 0xE2#8 => some (.byteOperand .sep)
  | 0xEA#8 => some (.bare .nop)
  | _ => none

/-- Decodes the first instruction of a byte sequence and gives the bytes after it. Operand words are big-endian (R62). -/
def decode : List Byte → Except DecodeError (Instr × List Byte)
  | [] => .error .noBytes
  | op :: rest =>
    match decodeOpcode op with
    | none => .error (.unknownOpcode op)
    | some (.bare i) => .ok (i, rest)
    | some (.byteOperand mk) =>
      match rest with
      | b :: rest => .ok (mk b, rest)
      | [] => .error (.truncated op)
    | some (.wordOperand mk) =>
      match rest with
      | hi :: lo :: rest => .ok (mk (Machine.beWord hi lo), rest)
      | _ => .error (.truncated op)

/-- The opcode byte of an instruction (R64, R65). -/
def Instr.opcode : Instr → Byte
  | .pha => 0x48#8
  | .pla => 0x68#8
  | .ldaDpIndX _ => 0xA1#8
  | .ldaDp _ => 0xA5#8
  | .ldaAbs _ => 0xAD#8
  | .ldaDpX _ => 0xB5#8
  | .ldaAbsY _ => 0xB9#8
  | .ldaAbsX _ => 0xBD#8
  | .rep _ => 0xC2#8
  | .sep _ => 0xE2#8
  | .nop => 0xEA#8

/-- The addressing mode of an instruction's descriptor; the halt opcode has none (R64, R65). -/
def Instr.mode : Instr → Option Mode
  | .pha => some .accumulator
  | .pla => some .accumulator
  | .ldaDpIndX _ => some .directPageIndirectX
  | .ldaDp _ => some .directPage
  | .ldaAbs _ => some .absolute
  | .ldaDpX _ => some .directPageX
  | .ldaAbsY _ => some .absoluteY
  | .ldaAbsX _ => some .absoluteX
  | .rep _ => some .immediate
  | .sep _ => some .immediate
  | .nop => none

/-- The declared size in bytes; for the halt opcode its length for assembly purposes (R64, R65). -/
def Instr.size : Instr → Nat
  | .pha => 1
  | .pla => 1
  | .ldaDpIndX _ => 2
  | .ldaDp _ => 2
  | .ldaAbs _ => 3
  | .ldaDpX _ => 2
  | .ldaAbsY _ => 3
  | .ldaAbsX _ => 3
  | .rep _ => 2
  | .sep _ => 2
  | .nop => 1

/-- A word operand as it stands in memory: high byte first (R61, R62). -/
def encodeWord (w : Word) : List Byte := [Machine.hiByte w, Machine.loByte w]

/-- The operand bytes of an instruction, in memory order (R61). -/
def Instr.operandBytes : Instr → List Byte
  | .pha => []
  | .pla => []
  | .ldaDpIndX dp => [dp]
  | .ldaDp dp => [dp]
  | .ldaAbs addr => encodeWord addr
  | .ldaDpX dp => [dp]
  | .ldaAbsY addr => encodeWord addr
  | .ldaAbsX addr => encodeWord addr
  | .rep mask => [mask]
  | .sep mask => [mask]
  | .nop => []

/-- The bytes of an instruction, the opcode at the lowest address (R60, R61). -/
def encode (i : Instr) : List Byte := i.opcode :: i.operandBytes

/-- The three bytes of the longest instruction, read from a number whose bit 0 is the least significant bit of the first byte; every
bit from `nbits` up counts as 0. -/
def tableBytes (nbits w : Nat) : List Byte :=
  let v := w % 2 ^ nbits
  [BitVec.ofNat 8 v, BitVec.ofNat 8 (v / 2 ^ 8), BitVec.ofNat 8 (v / 2 ^ 16)]

/-- The instruction the decoder reads from an instruction whose bits are `w`, numbered as spec/opcode_table.json numbers them. -/
def decodeTableWord (nbits w : Nat) : Option Instr :=
  match decode (tableBytes nbits w) with
  | .ok (i, _) => some i
  | .error _ => none

end Sys2Proof
end

