-- ==== Sys2Proof/Machine/Flags.lean ====
section
/-! DEFINITION. The status register P: bit positions (10_state.md R24, R25), and every flag computation of the spec: REP and SEP on
the whole byte (42_status_rep_sep.md R110, R111) and SetNZ (43_load_lda.md R116). -/

namespace Sys2Proof.Machine

/-- The eight flags of P (R24). -/
inductive StatusFlag where
  | N | V | M | X | D | I | Z | C
  deriving DecidableEq, Repr

/-- The bit of P that holds a flag: the CORE's internal order, N lowest and C highest (R24; D2). -/
def flagBit : StatusFlag → Nat
  | .N => 0
  | .V => 1
  | .M => 2
  | .X => 3
  | .D => 4
  | .I => 5
  | .Z => 6
  | .C => 7

/-- The mask of a flag (R24). -/
def flagMask (f : StatusFlag) : Byte := 1#8 <<< flagBit f

/-- The value of a flag in a status byte. -/
def getFlag (f : StatusFlag) (p : Byte) : Bool := p.getLsbD (flagBit f)

/-- A status byte with one flag written and the others kept. -/
def putFlag (f : StatusFlag) (v : Bool) (p : Byte) : Byte := if v then p ||| flagMask f else p &&& ~~~flagMask f

/-- `P & ~mask` (R110). -/
def clearFlags (mask : Byte) (s : State) : State := s.setP (s.P &&& ~~~mask)

/-- `P | mask` (R111). -/
def setFlags (mask : Byte) (s : State) : State := s.setP (s.P ||| mask)

/-- Writes N and Z when `LOAD_SETS_NZ` holds; when it does not, changes nothing (R116; D11). -/
def writeNZ (n z : Bool) (s : State) : State :=
  if s.cfg.loadSetsNZ then s.setP (putFlag .Z z (putFlag .N n s.P)) else s

/-- SetNZ in the 8-bit case: `N <- v[7]`, `Z <- (v[7:0] = 0)` (R116). -/
def setNZ8 (v : Byte) (s : State) : State := writeNZ (v.getLsbD 7) (v == 0#8) s

/-- SetNZ in the 16-bit case: `N <- v[15]`, `Z <- (v[15:0] = 0)` (R116). -/
def setNZ16 (v : Word) (s : State) : State := writeNZ (v.getLsbD 15) (v == 0#16) s

end Sys2Proof.Machine
end

