-- ==== Sys2Proof/Machine/Operands.lean ====
section
/-! DEFINITION. Operand widths (10_state.md R27, R28), the operand fetch (40_addressing.md R76) and the eleven addressing-mode
resolvers (R77 to R87, R89). Each mode is given twice: as a function of its operand value (what an instruction's meaning uses) and,
in `resolver`, as the spec's own function of the register file and memory, which reads the operand first. -/

namespace Sys2Proof.Machine

/-- The accumulator is 8 bits wide: `(E = 1) or (P.M = 1)` (R13, R27). -/
def m8 (s : State) : Bool := s.E || getFlag .M s.P

/-- The index registers are 8 bits wide: `(E = 1) or (P.X = 1)` (R13, R28). -/
def x8 (s : State) : Bool := s.E || getFlag .X s.P

/-- The stack-pointer arithmetic is 8 bits wide: `E = 1` (R13, R28). -/
def s8 (s : State) : Bool := s.E

/-- `idx(r)`: what an index register contributes to an address (R13, R28). -/
def idx (r : Word) (s : State) : Word := if x8 s then (loByte r).setWidth 16 else r

/-- `opAddr`: the byte after the opcode, in the program bank (R76). -/
def operandAddr (s : State) : Address := bankAddr s.PBR (s.PC + 1#16)

/-- `op8` (R76). -/
def fetchOp8 (s : State) : Except Fault Byte := memRead1 (operandAddr s) s

/-- `op16`, big-endian (R62, R76). -/
def fetchOp16 (s : State) : Except Fault Word := memRead2 (operandAddr s) s

/-- Immediate: `ea = PBR:(PC+1)` (R77). -/
def immediateInfo (s : State) : Info := { ea := operandAddr s, address := 0#24 }

/-- Absolute: `ea = BankAddr(DBR, op16)` (R78). -/
def absoluteInfo (op16 : Word) (s : State) : Info := { ea := bankAddr s.DBR op16, address := 0#24 }

/-- Absolute plus an index register, a 24-bit addition that carries into the bank (R79, R80). -/
def absoluteIndexedInfo (op16 r : Word) (s : State) : Info :=
  { ea := bankAddr s.DBR op16 + (idx r s).setWidth 24, address := 0#24 }

/-- AbsoluteX (R79). -/
def absoluteXInfo (op16 : Word) (s : State) : Info := absoluteIndexedInfo op16 s.X s

/-- AbsoluteY (R80). -/
def absoluteYInfo (op16 : Word) (s : State) : Info := absoluteIndexedInfo op16 s.Y s

/-- AbsoluteIndirect: the raw word operand, not dereferenced, bank 0 (R81). -/
def absoluteIndirectInfo (op16 : Word) : Info := { ea := op16.setWidth 24, address := 0#24 }

/-- AbsoluteIndirectX: the word at `PBR:ptr`, with `ptr = (op16 + idx(X)) mod 2^16`; `address` is the pointer's own (R82). -/
def absoluteIndirectXInfo (op16 : Word) (s : State) : Except Fault Info := do
  let ptr := bankAddr s.PBR (op16 + idx s.X s)
  let target ← memRead2 ptr s
  return { ea := target.setWidth 24, address := ptr }

/-- Accumulator: no operand, both fields zero (R83). -/
def accumulatorInfo : Info := { ea := 0#24, address := 0#24 }

/-- DirectPage: `(D + op8) mod 2^16` in bank 0 (R84). -/
def directPageInfo (op8 : Byte) (s : State) : Info :=
  { ea := (s.D + op8.setWidth 16).setWidth 24, address := 0#24 }

/-- DirectPage plus an index register: the index width is selected first, then the three terms are added mod 2^16 (R85, R86). -/
def directPageIndexedInfo (op8 : Byte) (r : Word) (s : State) : Info :=
  { ea := (s.D + op8.setWidth 16 + idx r s).setWidth 24, address := 0#24 }

/-- DirectPageX (R85). -/
def directPageXInfo (op8 : Byte) (s : State) : Info := directPageIndexedInfo op8 s.X s

/-- DirectPageY (R86). -/
def directPageYInfo (op8 : Byte) (s : State) : Info := directPageIndexedInfo op8 s.Y s

/-- DirectPageIndirectX: the word at `00:ptr`, with `ptr = (D + X + op8) mod 2^16` and all 16 bits of X whatever the index width
(R87; 90_conflicts.md C2). -/
def directPageIndirectXInfo (op8 : Byte) (s : State) : Except Fault Info := do
  let ptr := s.D + s.X + op8.setWidth 16
  let target ← memRead2 (bankAddr 0x00#8 ptr) s
  return { ea := target.setWidth 24, address := 0#24 }

/-- The resolver of a mode, from register file and memory to InstructionInfo; a mode outside the eleven has none (R75, R89). -/
def resolver : Mode → Option (State → Except Fault Info)
  | .immediate => some fun s => .ok (immediateInfo s)
  | .absolute => some fun s => do return absoluteInfo (← fetchOp16 s) s
  | .absoluteX => some fun s => do return absoluteXInfo (← fetchOp16 s) s
  | .absoluteY => some fun s => do return absoluteYInfo (← fetchOp16 s) s
  | .absoluteIndirect => some fun s => do return absoluteIndirectInfo (← fetchOp16 s)
  | .absoluteIndirectX => some fun s => do absoluteIndirectXInfo (← fetchOp16 s) s
  | .accumulator => some fun _ => .ok accumulatorInfo
  | .directPage => some fun s => do return directPageInfo (← fetchOp8 s) s
  | .directPageX => some fun s => do return directPageXInfo (← fetchOp8 s) s
  | .directPageY => some fun s => do return directPageYInfo (← fetchOp8 s) s
  | .directPageIndirectX => some fun s => do directPageIndirectXInfo (← fetchOp8 s) s
  | .unresolved _ => none

end Sys2Proof.Machine
end

