-- ==== Sys2Proof/Machine/Load.lean ====
section
/-! DEFINITION. LDA in its six addressing modes (43_load_lda.md R115 to R122). -/

namespace Sys2Proof.Machine

/-- LDA's execute function, shared by every LDA opcode: a byte into the low half of A when `m8` holds, else the big-endian word into
A, then SetNZ; it reads only `info.ea` (R115, R116). -/
def loadA (info : Info) (s : State) : Except Fault State :=
  if m8 s then do
    let v ← memRead1 info.ea s
    return setNZ8 v (s.setA (setLow s.A v))
  else do
    let v ← memRead2 info.ea s
    return setNZ16 v (s.setA v)

/-- `LDA ($dp,X)` (R122). -/
def execLdaDpIndX (dp : Byte) (s : State) : Host.Outcome State Fault Refusal :=
  complete (Instr.ldaDpIndX dp).size (directPageIndirectXInfo dp s) loadA s

/-- `LDA $dp` (R117). -/
def execLdaDp (dp : Byte) (s : State) : Host.Outcome State Fault Refusal :=
  complete (Instr.ldaDp dp).size (.ok (directPageInfo dp s)) loadA s

/-- `LDA $addr` (R118). -/
def execLdaAbs (addr : Word) (s : State) : Host.Outcome State Fault Refusal :=
  complete (Instr.ldaAbs addr).size (.ok (absoluteInfo addr s)) loadA s

/-- `LDA $dp,X` (R121). -/
def execLdaDpX (dp : Byte) (s : State) : Host.Outcome State Fault Refusal :=
  complete (Instr.ldaDpX dp).size (.ok (directPageXInfo dp s)) loadA s

/-- `LDA $addr,Y` (R120). -/
def execLdaAbsY (addr : Word) (s : State) : Host.Outcome State Fault Refusal :=
  complete (Instr.ldaAbsY addr).size (.ok (absoluteYInfo addr s)) loadA s

/-- `LDA $addr,X` (R119). -/
def execLdaAbsX (addr : Word) (s : State) : Host.Outcome State Fault Refusal :=
  complete (Instr.ldaAbsX addr).size (.ok (absoluteXInfo addr s)) loadA s

end Sys2Proof.Machine
end

