-- ==== Sys2Proof/Machine/Stack.lean ====
section
/-! DEFINITION. The stack discipline (44_stack_pha_pla.md R125 to R132) and PHA and PLA (R133, R134). -/

namespace Sys2Proof.Machine

/-- The stack byte addressed by S, in bank 0 (R125). -/
def stackAddr (s : State) : Address := bankAddr 0x00#8 s.S

/-- S after one push: in emulation mode only the low byte counts down and the high byte is kept (R126). -/
def decS (s : State) : State := s.setS (if s8 s then setLow s.S (loByte s.S - 1#8) else s.S - 1#16)

/-- S after one pull (R127). -/
def incS (s : State) : State := s.setS (if s8 s then setLow s.S (loByte s.S + 1#8) else s.S + 1#16)

/-- `PushByte(v)`: the write comes first, then the decrement (R128). -/
def pushByte (v : Byte) (s : State) : Except Fault State := do
  let t ← memWrite1 (stackAddr s) v s
  return decS t

/-- `PullByte()`: the increment comes first, then the read, so a faulting read leaves S incremented (R129, R143). -/
def pullByte (s : State) : Except Fault (Byte × State) := do
  let t := incS s
  let v ← memRead1 (stackAddr t) t
  return (v, t)

/-- `PushWord(w)`: the high byte first (R130). -/
def pushWord (w : Word) (s : State) : Except Fault State := do
  let t ← pushByte (hiByte w) s
  pushByte (loByte w) t

/-- `PullWord()`: the low byte first (R131). -/
def pullWord (s : State) : Except Fault (Word × State) := do
  let (lo, t) ← pullByte s
  let (hi, u) ← pullByte t
  return (beWord hi lo, u)

/-- PHA's execute function; InstructionInfo is unused (R133). -/
def pushA (_ : Info) (s : State) : Except Fault State :=
  if m8 s then pushByte (loByte s.A) s else pushWord s.A s

/-- PLA's execute function (R134): as for LDA, an 8-bit pull keeps the high byte of A. -/
def pullA (_ : Info) (s : State) : Except Fault State :=
  if m8 s then do
    let (v, t) ← pullByte s
    return setNZ8 v (t.setA (setLow t.A v))
  else do
    let (v, t) ← pullWord s
    return setNZ16 v (t.setA v)

/-- `PHA` (R133). -/
def execPha (s : State) : Host.Outcome State Fault Refusal :=
  complete Instr.pha.size (.ok accumulatorInfo) pushA s

/-- `PLA` (R134). -/
def execPla (s : State) : Host.Outcome State Fault Refusal :=
  complete Instr.pla.size (.ok accumulatorInfo) pullA s

end Sys2Proof.Machine
end

