-- ==== Sys2Proof/Machine/StatusReg.lean ====
section
/-! DEFINITION. REP and SEP (42_status_rep_sep.md R110 to R113). -/

namespace Sys2Proof.Machine

/-- REP's execute function as the dispatch table holds it: it reads the mask byte at `info.ea` itself (R110, R112). -/
def repExecute (info : Info) (s : State) : Except Fault State := do
  let mask ← memRead1 info.ea s
  return clearFlags mask s

/-- SEP's execute function as the dispatch table holds it (R111, R112). -/
def sepExecute (info : Info) (s : State) : Except Fault State := do
  let mask ← memRead1 info.ea s
  return setFlags mask s

/-- `REP #mask` (R110): the mask is the instruction's operand byte, which stands at the Immediate effective address. -/
def execRep (mask : Byte) (s : State) : Host.Outcome State Fault Refusal :=
  complete (Instr.rep mask).size (.ok (immediateInfo s)) (fun _ t => .ok (clearFlags mask t)) s

/-- `SEP #mask` (R111). -/
def execSep (mask : Byte) (s : State) : Host.Outcome State Fault Refusal :=
  complete (Instr.sep mask).size (.ok (immediateInfo s)) (fun _ t => .ok (setFlags mask t)) s

end Sys2Proof.Machine
end

