-- ==== Sys2Proof/Machine/Dispatch.lean ====
section
/-! DEFINITION. One arm per execute function (41_dispatch_step.md R108). -/

namespace Sys2Proof.Machine

/-- The effect of one decoded instruction. -/
def exec (i : Instr) (s : State) : Host.Outcome State Fault Refusal :=
  match i with
  | .pha => Sys2Proof.Machine.execPha s
  | .pla => Sys2Proof.Machine.execPla s
  | .ldaDpIndX dp => Sys2Proof.Machine.execLdaDpIndX dp s
  | .ldaDp dp => Sys2Proof.Machine.execLdaDp dp s
  | .ldaAbs addr => Sys2Proof.Machine.execLdaAbs addr s
  | .ldaDpX dp => Sys2Proof.Machine.execLdaDpX dp s
  | .ldaAbsY addr => Sys2Proof.Machine.execLdaAbsY addr s
  | .ldaAbsX addr => Sys2Proof.Machine.execLdaAbsX addr s
  | .rep mask => Sys2Proof.Machine.execRep mask s
  | .sep mask => Sys2Proof.Machine.execSep mask s
  | .nop => Sys2Proof.Machine.execNop s

end Sys2Proof.Machine
end

