-- ==== Sys2Proof/Machine/Fetch.lean ====
section
/-! DEFINITION. Fetching an instruction: the opcode byte at PBR:PC, then the operand bytes its descriptor's mode reads
(41_dispatch_step.md R97; 40_addressing.md R76), and placing an instruction where the next fetch reads it. -/

namespace Sys2Proof.Machine

/-- Where the opcode is fetched: `BankAddr(PBR, PC)` (R97). -/
def opcodeAddr (s : State) : Address := bankAddr s.PBR s.PC

/-- The opcode fetch (R97). -/
def fetchOpcode (s : State) : Except Fault Byte := memRead1 (opcodeAddr s) s

/-- Where the k-th byte of the instruction at PC stands (R61, R76): the opcode at PBR:PC, the first operand byte at
`PBR:(PC+1 mod 2^16)`, the second one further in the flat 24-bit space. -/
def instrByteAddr (s : State) : Nat → Address
  | 0 => opcodeAddr s
  | 1 => operandAddr s
  | _ => nextAddr (operandAddr s)

/-- Fetches and decodes the instruction at PC. Only the bytes its shape has are read, the opcode first, so an illegal opcode is
reported whatever follows it, and no byte after the halt opcode is read (R60, R99, R107, R144). -/
def fetchInstr (s : State) : Except Fault Instr := do
  let op ← fetchOpcode s
  match decodeOpcode op with
  | none => .error (.unknownOpcode op)
  | some (.bare i) => .ok i
  | some (.byteOperand mk) => do return mk (← fetchOp8 s)
  | some (.wordOperand mk) => do return mk (← fetchOp16 s)

/-- Places the bytes of `bytes` from the k-th instruction byte on. -/
def placeInstrBytes (s : State) : Nat → List Byte → State → State
  | _, [], t => t
  | k, b :: rest, t => placeInstrBytes s (k + 1) rest (placeByte (instrByteAddr s k) b t)

end Sys2Proof.Machine
end

