-- ==== Sys2Proof/Machine/Step.lean ====
section
/-! DEFINITION. One activation of `step` (41_dispatch_step.md R96): fetch, then run the decoded instruction. -/

namespace Sys2Proof.Machine

/-- One step. It equals the spec's own algorithm R96 over the baseline table, which `sequencer` transcribes line by line. -/
def step (s : State) : Host.Outcome State Fault Refusal :=
  match fetchInstr s with
  | .error f => .fault f
  | .ok i => exec i s

/-- The state with an instruction's bytes, three of them, standing where `step` fetches its next instruction. The opcode is the low
byte of `w`; every bit from `nbits` up is 0. It stands for the host's load before the first step (R155, R162; assumption log 8). -/
def State.withFetchWord (s : State) (nbits w : Nat) : State := placeInstrBytes s 0 (tableBytes nbits w) s

end Sys2Proof.Machine
end

