-- ==== Sys2Proof/Machine/Launch.lean ====
section
/-! DEFINITION. What the host does before the first step: the bulk loader that writes `INIT_MEM` (70_reset_and_hazards.md R162;
60_exceptions.md R155). The register file it constructs is `State.resetWith`; a general launch (R161) is any `State`. -/

namespace Sys2Proof.Machine

/-- Copies a contiguous byte sequence into memory at its start address; a byte beyond the memory's capacity is the memory's
out-of-range failure (R49, R162). DESIGN CHOICE (assumption log 26): a sequence that runs past 0xFFFFFF goes on at address 0, a point on
which R155 and R162 are silent; unsafe. -/
def loadSequence : Address → List Byte → State → Except Fault State
  | _, [], s => .ok s
  | a, b :: rest, s => do loadSequence (nextAddr a) rest (← memWrite1 a b s)

/-- Copies each (start address, byte sequence) pair in list order, so that the last write wins where sequences overlap. DESIGN CHOICE
of the order (assumption log 7): R162 calls the result of an overlap unspecified. -/
def loadSequences : List (Address × List Byte) → State → Except Fault State
  | [], s => .ok s
  | (a, bytes) :: rest, s => do loadSequences rest (← loadSequence a bytes s)

end Sys2Proof.Machine
end

