-- ==== Sys2Proof/Machine/Table.lean ====
section
/-! DEFINITION. The dispatch table: descriptors and the baseline contents (30_encoding.md R63, R64). -/

namespace Sys2Proof.Machine

/-- An instruction descriptor: immutable, keyed by opcode (R63). -/
structure Descriptor where
  /-- Text; it has no effect on execution. -/
  mnemonic : String
  /-- The addressing mode. -/
  mode : Mode
  /-- The declared size in bytes. -/
  size : Nat
  /-- The cycle cost, a number no rule reads (R167). -/
  cycles : Nat
  /-- The execute function. -/
  execute : Info → State → Except Fault State

/-- A dispatch table: one entry, absent or a descriptor, per opcode byte (R63). -/
abbrev OpcodeTable := Byte → Option Descriptor

/-- The baseline table's ten present entries; every other entry is absent, that of 0xEA too (R64, R65). -/
def baselineTable : OpcodeTable := fun op =>
  match op with
  | 0x48#8 => some ⟨"PHA", .accumulator, 1, Config.cycleCost op, pushA⟩
  | 0x68#8 => some ⟨"PLA", .accumulator, 1, Config.cycleCost op, pullA⟩
  | 0xA1#8 => some ⟨"LDA", .directPageIndirectX, 2, Config.cycleCost op, loadA⟩
  | 0xA5#8 => some ⟨"LDA", .directPage, 2, Config.cycleCost op, loadA⟩
  | 0xAD#8 => some ⟨"LDA", .absolute, 3, Config.cycleCost op, loadA⟩
  | 0xB5#8 => some ⟨"LDA", .directPageX, 2, Config.cycleCost op, loadA⟩
  | 0xB9#8 => some ⟨"LDA", .absoluteY, 3, Config.cycleCost op, loadA⟩
  | 0xBD#8 => some ⟨"LDA", .absoluteX, 3, Config.cycleCost op, loadA⟩
  | 0xC2#8 => some ⟨"REP", .immediate, 2, Config.cycleCost op, repExecute⟩
  | 0xE2#8 => some ⟨"SEP", .immediate, 2, Config.cycleCost op, sepExecute⟩
  | _ => none

end Sys2Proof.Machine
end

