-- ==== Sys2Proof/Machine/Sequencer.lean ====
section
/-! DEFINITION. The step algorithm R96 of 41_dispatch_step.md, line by line, over any dispatch table (00_scope.md R8, `OPCODE_TABLE`),
and the outcomes of R95. `step` is the machine over the baseline table; an obligation states that the two agree. -/

namespace Sys2Proof.Machine

/-- The outcome of one activation of `step` (R95). -/
inductive StepResult where
  /-- Continue: the instruction executed. -/
  | continued (t : State)
  /-- Halted: the halt opcode was fetched; no further effect (R98). -/
  | halted
  /-- Error(UnknownOpcode), Error(UnknownMode) or MemoryFault (R140). -/
  | failed (f : Fault)
  deriving Repr

/-- The halt opcode (R65). -/
def haltOpcode : Byte := 0xEA#8

/-- Resolve, execute, advance PC by the descriptor's size: the last four lines of R96. -/
def runDescriptor (d : Descriptor) (resolve : State → Except Fault Info) (s : State) : StepResult :=
  match resolve s with
  | .error f => .failed f
  | .ok info =>
    match d.execute info s with
    | .error f => .failed f
    | .ok t => .continued (advancePC d.size t)

/-- The step algorithm in its normative order (R96, R97 to R102, R144). -/
def sequencer (table : OpcodeTable) (s : State) : StepResult :=
  match fetchOpcode s with
  | .error f => .failed f
  | .ok op =>
    if op = haltOpcode then .halted
    else
      match table op with
      | none => .failed (.unknownOpcode op)
      | some d =>
        match resolver d.mode with
        | none => .failed (.unknownMode d.mode)
        | some resolve => runDescriptor d resolve s

/-- What the host's interface sees of a step's outcome: Halted leaves the state as it was (R98, R106; assumption log 1). -/
def outcomeOf (s : State) : StepResult → Host.Outcome State Fault Refusal
  | .continued t => .next t
  | .halted => .next s
  | .failed f => .fault f

end Sys2Proof.Machine
end

