-- ==== Sys2Proof/Machine/Report.lean ====
section
/-! DEFINITION. The status each step reports to the caller (41_dispatch_step.md R105; 60_exceptions.md R146). It is an output of the
step, not stored state (10_state.md R32). -/

namespace Sys2Proof.Machine

/-- The step statuses. -/
inductive Status where
  | halted
  | continued
  | error
  deriving DecidableEq, Repr

/-- The number reported: 0 = Halted, 1 = Continue, 2 = Error; 3 is never reported (R105, R146). -/
def statusCode : Status → Nat
  | .halted => 0
  | .continued => 1
  | .error => 2

/-- A failure's status: both errors report 2; a MemoryFault is delivered with its address, not as a status (R105, R146). -/
def faultStatus : Fault → Option Status
  | .unknownOpcode _ => some .error
  | .unknownMode _ => some .error
  | .memoryFault _ _ => none

/-- The status of a step's outcome (R95, R105). -/
def resultStatus : StepResult → Option Status
  | .continued _ => some .continued
  | .halted => some .halted
  | .failed f => faultStatus f

/-- The status `step` reports from a state; none when the memory's out-of-range failure is delivered in its place (R146). -/
def stepStatus (s : State) : Option Status :=
  match fetchInstr s with
  | .error f => faultStatus f
  | .ok i =>
    match exec i s with
    | .next _ => if i = Instr.nop then some .halted else some .continued
    | .fault f => faultStatus f
    | .refused _ => none

end Sys2Proof.Machine
end

