-- ==== Sys2Proof/WellFormed.lean ====
section
/-! DEFINITION. The checks on terms: a configuration within the spec's ranges (00_scope.md R8), a descriptor whose size matches the
bytes its mode reads (30_encoding.md R63, R73), and an instruction whose size and mode agree. -/

namespace Sys2Proof

/-- `1 <= MEM_BYTES <= 2^24` (R8). -/
def Config.wellFormed (c : Config) : Bool := decide (1 ≤ c.memBytes ∧ c.memBytes ≤ 2 ^ 24)

/-- The size a descriptor of this mode should declare; a mode without a resolver has none (R61, R73). -/
def Mode.expectedSize : Mode → Option Nat
  | .immediate => some 2
  | .absolute => some 3
  | .absoluteX => some 3
  | .absoluteY => some 3
  | .absoluteIndirect => some 3
  | .absoluteIndirectX => some 3
  | .accumulator => some 1
  | .directPage => some 2
  | .directPageX => some 2
  | .directPageY => some 2
  | .directPageIndirectX => some 2
  | .unresolved _ => none

/-- A descriptor's declared size is the one its mode should have (R73). The step itself does not check this. -/
def sizeFits (m : Mode) (size : Nat) : Bool := m.expectedSize == some size

/-- An instruction is well formed when its declared size fits its mode; the halt opcode, which has no mode, is one byte (R65, R73).
Operands are bit vectors of the encoding's own widths, so every operand value is one the encoding admits. -/
def Instr.wellFormed (i : Instr) : Bool :=
  match i.mode with
  | some m => sizeFits m i.size
  | none => i.size == 1

end Sys2Proof
end

