-- ==== Sys2Proof/Safety.lean ====
section
/-! DEFINITION. The terms claims are stated in: the state invariant, what a run's end is (60_exceptions.md R156), the fields no
instruction writes, and the states the load and stack rules describe, written in plain arithmetic rather than through the model's own
operations. -/

namespace Sys2Proof.Safety

open Sys2Proof.Machine

/-- The state invariant: memory in canonical form, nothing listed outside the memory's capacity, and a capacity in the spec's range
(R8, R40, R49). -/
def StateInv (s : State) : Prop :=
  Memory.wf s.mem ∧ (∀ c ∈ s.mem, c.1 < s.cfg.memBytes) ∧ s.cfg.wellFormed = true

/-- A state whose step reports Halted, the only stop state (R154). -/
def Halted (s : State) : Prop := stepStatus s = some .halted

/-- How a run stands after a number of steps (R156). -/
inductive RunEnd where
  /-- Every step so far was Continue. -/
  | running (t : State)
  /-- The run ended normally, at Halted. -/
  | normal (t : State)
  /-- The run ended in error. -/
  | failed (f : Fault)
  /-- The model gave a step no meaning; `step` never does. -/
  | refused (r : Refusal)
  deriving DecidableEq, Repr

/-- The run from a launch state, for at most `k` steps: it ends at the first step whose outcome is not Continue (R156). -/
def runToEnd : Nat → State → RunEnd
  | 0, s => .running s
  | k + 1, s =>
    if stepStatus s = some .halted then .normal s
    else
      match step s with
      | .next t => runToEnd k t
      | .fault f => .failed f
      | .refused r => .refused r

/-- A step that does not fail: it continues or halts. -/
def StepSafe (s : State) : Prop := ∃ t, step s = .next t

/-- The registers and parameters that no instruction in scope writes (R17, R18, R20, R23, R26, R30). -/
def SameFixedFields (s t : State) : Prop :=
  t.X = s.X ∧ t.Y = s.Y ∧ t.D = s.D ∧ t.DBR = s.DBR ∧ t.PBR = s.PBR ∧ t.E = s.E ∧ t.B = s.B ∧ t.cfg = s.cfg

/-- Every byte of memory reads as before. -/
def SameMemory (s t : State) : Prop := ∀ a : Nat, Memory.read t.mem a = Memory.read s.mem a

/-- Every flag of P but N and Z is as before. -/
def SameFlagsButNZ (s t : State) : Prop := ∀ f : StatusFlag, f ≠ .N → f ≠ .Z → getFlag f t.P = getFlag f s.P

/-- The six LDA instructions. -/
def isLoad : Instr → Bool
  | .ldaDpIndX _ => true
  | .ldaDp _ => true
  | .ldaAbs _ => true
  | .ldaDpX _ => true
  | .ldaAbsY _ => true
  | .ldaAbsX _ => true
  | .pha => false
  | .pla => false
  | .rep _ => false
  | .sep _ => false
  | .nop => false

/-- The accumulator is 8 bits wide, bit by bit: E, or bit 2 of P (R24, R27). -/
abbrev Accumulator8 (s : State) : Prop := s.E = true ∨ s.P.getLsbD 2 = true

/-- The index registers are 8 bits wide, bit by bit: E, or bit 3 of P (R24, R28). -/
abbrev Index8 (s : State) : Prop := s.E = true ∨ s.P.getLsbD 3 = true

/-- What an index register contributes to an address, as a number: its low byte at 8 bits, all of it at 16 (R13, R28). -/
def indexValue (s : State) (r : Word) : Nat := if Index8 s then r.toNat % 256 else r.toNat

/-- P after N and Z were written at bits 0 and 6, when `LOAD_SETS_NZ` holds (R24, R116). -/
def statusAfterLoad (s : State) (n z : Bool) : Byte :=
  if s.cfg.loadSetsNZ then (s.P &&& 0xBE#8) ||| (if n then 0x01#8 else 0x00#8) ||| (if z then 0x40#8 else 0x00#8) else s.P

/-- The state after an 8-bit load of `v` by an instruction of `size` bytes: the high byte of A is untouched (R115, R116). -/
def afterLoad8 (s : State) (v : Byte) (size : Nat) : State :=
  { s with
    A := BitVec.ofNat 16 (s.A.toNat / 256 * 256 + v.toNat)
    P := statusAfterLoad s (decide (128 ≤ v.toNat)) (decide (v.toNat = 0))
    PC := BitVec.ofNat 16 (s.PC.toNat + size) }

/-- The state after a 16-bit load of the bytes `hi` and `lo` by an instruction of `size` bytes (R115, R116). -/
def afterLoad16 (s : State) (hi lo : Byte) (size : Nat) : State :=
  { s with
    A := BitVec.ofNat 16 (hi.toNat * 256 + lo.toNat)
    P := statusAfterLoad s (decide (128 ≤ hi.toNat)) (decide (hi.toNat * 256 + lo.toNat = 0))
    PC := BitVec.ofNat 16 (s.PC.toNat + size) }

/-- S after one push, in plain arithmetic: the low byte alone counts in emulation mode, all 16 bits in native mode (R126). -/
def pushedS (emulation : Bool) (v : Word) : Word :=
  if emulation then BitVec.ofNat 16 (v.toNat / 256 * 256 + (v.toNat + 255) % 256) else BitVec.ofNat 16 (v.toNat + 65535)

/-- S after one pull, in plain arithmetic (R127). -/
def pulledS (emulation : Bool) (v : Word) : Word :=
  if emulation then BitVec.ofNat 16 (v.toNat / 256 * 256 + (v.toNat + 1) % 256) else BitVec.ofNat 16 (v.toNat + 1)

/-- The byte of memory at a number, for addresses written in plain arithmetic. -/
def memAt (s : State) (a : Nat) : Byte := Memory.read s.mem a

/-- What an LDA of `size` bytes does from a state once its effective address is `ea`: the load at the width of the accumulator when
every data byte is in range, and the MemoryFault at the first data byte that is not, with the state unchanged (R44, R45, R115, R116,
R143). -/
def LoadsFrom (i : Instr) (size : Nat) (s : State) (ea : Nat) : Prop :=
  (Accumulator8 s → ea < s.cfg.memBytes → exec i s = .next (afterLoad8 s (memAt s ea) size)) ∧
  (¬ Accumulator8 s → ea < s.cfg.memBytes → (ea + 1) % 2 ^ 24 < s.cfg.memBytes →
    exec i s = .next (afterLoad16 s (memAt s ea) (memAt s ((ea + 1) % 2 ^ 24)) size)) ∧
  (s.cfg.memBytes ≤ ea → exec i s = .fault (.memoryFault (BitVec.ofNat 24 ea) s)) ∧
  (¬ Accumulator8 s → ea < s.cfg.memBytes → s.cfg.memBytes ≤ (ea + 1) % 2 ^ 24 →
    exec i s = .fault (.memoryFault (BitVec.ofNat 24 (ea + 1)) s))

/-- A mode's resolver answers from a state with the given effective and auxiliary address, as numbers (R75, R89). -/
def Resolves (m : Mode) (s : State) (ea address : Nat) : Prop :=
  ∃ resolve info, resolver m = some resolve ∧ resolve s = .ok info ∧ info.ea.toNat = ea ∧ info.address.toNat = address

/-- The eleven opcode bytes that are not illegal (R64, R65, R66). -/
def legalOpcodes : List Byte :=
  [0x48#8, 0x68#8, 0xA1#8, 0xA5#8, 0xAD#8, 0xB5#8, 0xB9#8, 0xBD#8, 0xC2#8, 0xE2#8, 0xEA#8]

end Sys2Proof.Safety
end

