-- ==== Sys2Proof/Certificates/Slice0/Obligations.lean ====
section
/-! DEFINITION. The statements for the provers. A docstring names the rules of spec/ a statement formalises; where a rule rests on one
of the spec's own decisions (D<n> of 92_eei_decisions.md) or on a choice of the model's (assumption log), it says so. -/

open Sys2Proof
open Sys2Proof.Machine
open Sys2Proof.Safety

/-! ### Encoding -/

/-- Decoding an encoded instruction gives it back, whatever its operands and whatever bytes follow. 30_encoding.md R60 to R65; the
opcode numbers are the spec's decision D9. -/
def Obligations.DecodeOfEncode : Prop :=
  ∀ (i : Instr) (rest : List Byte), i.wellFormed = true → decode (encode i ++ rest) = .ok (i, rest)

/-- Every byte sequence the decoder accepts is an encoding followed by the bytes it gives back: one meaning per word.
30_encoding.md R60, R67. -/
def Obligations.EncodeOfDecode : Prop :=
  ∀ (bytes rest : List Byte) (i : Instr), decode bytes = .ok (i, rest) → bytes = encode i ++ rest

/-- The decoder rejects exactly the 245 illegal opcodes as unknown, and a legal opcode exactly when operand bytes are missing.
30_encoding.md R61, R66 (decisions D9, D10). -/
def Obligations.DecoderRejections : Prop :=
  (∀ (op : Byte) (rest : List Byte), decode (op :: rest) = .error (.unknownOpcode op) ↔ op ∉ legalOpcodes) ∧
  (∀ (op : Byte) (rest : List Byte), decode (op :: rest) = .error (.truncated op) ↔
    (op ∈ [0xA1#8, 0xA5#8, 0xB5#8, 0xC2#8, 0xE2#8] ∧ rest = []) ∨
      (op ∈ [0xAD#8, 0xB9#8, 0xBD#8] ∧ rest.length < 2)) ∧
  (∀ bytes : List Byte, decode bytes = .error .noBytes ↔ bytes = [])

/-- A few words written out from the encodings of 30_encoding.md R61 and R64 and the programs of 95_test_vectors.md. The opcode numbers
are the spec's decision D9, and the absence of 0xA9 is its decision D10 (assumption log 14). -/
def Obligations.WrittenWordsDecode : Prop :=
  decodeTableWord 8 0x48 = some .pha ∧ decodeTableWord 8 0x68 = some .pla ∧ decodeTableWord 8 0xEA = some .nop ∧
  decodeTableWord 16 0x10A5 = some (.ldaDp 0x10#8) ∧ decodeTableWord 16 0x04E2 = some (.sep 0x04#8) ∧
  decodeTableWord 24 0x3412AD = some (.ldaAbs 0x1234#16) ∧ decodeTableWord 24 0x0060B9 = some (.ldaAbsY 0x6000#16) ∧
  decodeTableWord 16 0x12A9 = none ∧ decodeTableWord 8 0x00 = none

/-- P.M, P.X and E never change which instruction is fetched. 30_encoding.md R68. -/
def Obligations.ModeFlagsDoNotChangeDecoding : Prop :=
  ∀ (s : State) (p : Byte) (e : Bool) (i : Instr), fetchInstr s = .ok i → fetchInstr { s with P := p, E := e } = .ok i

/-! ### The step -/

/-- When the bytes of the instruction at PC read as the encoding of `i`, a step is exec of `i` at that state. The bytes stand at
PBR:PC, at PBR:(PC+1 mod 2^16), and one further in the flat 24-bit space. 41_dispatch_step.md R96, R97; 40_addressing.md R76
(decisions D3, D5). -/
def Obligations.StepRunsDecodedInstruction : Prop :=
  (∀ (s : State) (i : Instr), (∀ (k : Nat) (b : Byte), (encode i)[k]? = some b → memRead1 (instrByteAddr s k) s = .ok b) →
    fetchInstr s = .ok i ∧ step s = exec i s) ∧
  (∀ s : State, (instrByteAddr s 0).toNat = s.PBR.toNat * 65536 + s.PC.toNat ∧
    (instrByteAddr s 1).toNat = s.PBR.toNat * 65536 + (s.PC.toNat + 1) % 65536 ∧
    (instrByteAddr s 2).toNat = (s.PBR.toNat * 65536 + (s.PC.toNat + 1) % 65536 + 1) % 2 ^ 24)

/-- An instruction placed where the next fetch reads it is the instruction the next step runs. It is the model's form of the host's
load (assumption log 8; 60_exceptions.md, section 4). -/
def Obligations.PlacedInstructionRuns : Prop :=
  ∀ (s : State) (nbits w : Nat) (i : Instr), Memory.wf s.mem → (∀ k < 3, inRange s (instrByteAddr s k) = true) →
    decodeTableWord nbits w = some i → step (s.withFetchWord nbits w) = exec i (s.withFetchWord nbits w)

/-- The step and the status it reports are those of the spec's algorithm R96, transcribed line by line, over the baseline table:
decoding an instruction with its operands first and then running it changes neither the outcome, nor the faulting address, nor the
state a fault leaves. 41_dispatch_step.md R96, R105 (decisions D4, D14, D22); Halted shown as an unchanged next state is the model's
choice (assumption log 1). -/
def Obligations.StepRefinesSequencer : Prop :=
  ∀ s : State, step s = outcomeOf s (sequencer baselineTable s) ∧ stepStatus s = resultStatus (sequencer baselineTable s)

/-- The halt: the single byte 0xEA at PBR:PC halts the step before any table is consulted and whatever bytes follow; nothing is
written, PC does not advance, the status is 0. Only the opcode fetch can fault, and then no status is reported. 41_dispatch_step.md
R97, R98, R105, R107; 60_exceptions.md R146 (decisions D14, D22). Halted shown as an unchanged next state is the model's choice
(assumption log 1). -/
def Obligations.HaltOpcodeHalts : Prop :=
  encode .nop = [0xEA#8] ∧
  (∀ s : State, exec .nop s = .next s) ∧
  (∀ (table : OpcodeTable) (s : State), inRange s (bankAddr s.PBR s.PC) = true → byteAt s (bankAddr s.PBR s.PC) = 0xEA#8 →
    sequencer table s = .halted ∧ step s = .next s ∧ stepStatus s = some .halted ∧ statusCode .halted = 0) ∧
  (∀ s : State, inRange s (bankAddr s.PBR s.PC) = false →
    step s = .fault (.memoryFault (bankAddr s.PBR s.PC) s) ∧ stepStatus s = none)

/-- An opcode outside the baseline table, 0xA9 among them, ends the step with Error(UnknownOpcode), status 2, before any operand is
read; a further step does the same. 41_dispatch_step.md, section 1; 30_encoding.md, section 2 (decisions D9, D10). -/
def Obligations.UnknownOpcodeStopsStep : Prop :=
  ∀ (s : State) (op : Byte), inRange s (bankAddr s.PBR s.PC) = true → byteAt s (bankAddr s.PBR s.PC) = op → op ∉ legalOpcodes →
    step s = .fault (.unknownOpcode op) ∧ stepStatus s = some .error ∧ statusCode .error = 2

/-- Over any table: a present entry whose mode has no resolver ends the step with Error(UnknownMode); with the baseline table no step
does. 41_dispatch_step.md, section 1; 40_addressing.md, section 3 (decision D19). -/
def Obligations.UnknownModeOnlyBeyondBaseline : Prop :=
  (∀ (table : OpcodeTable) (s : State) (op : Byte) (d : Descriptor) (name : String), fetchOpcode s = .ok op → op ≠ 0xEA#8 →
    table op = some d → d.mode = .unresolved name →
      sequencer table s = .failed (.unknownMode (.unresolved name)) ∧ resultStatus (sequencer table s) = some .error) ∧
  (∀ (s : State) (m : Mode), step s ≠ .fault (.unknownMode m))

/-- Over any table, a step that continues fetched an opcode other than 0xEA, found its descriptor, resolved its mode and ran its
execute function once each, in that order, and then added the declared size to the PC that execute function left.
41_dispatch_step.md, section 1 (decision D4). -/
def Obligations.SequencerInversion : Prop :=
  ∀ (table : OpcodeTable) (s t : State), sequencer table s = .continued t ↔
    ∃ (op : Byte) (d : Descriptor) (resolve : State → Except Fault Info) (info : Info) (u : State),
      fetchOpcode s = .ok op ∧ op ≠ 0xEA#8 ∧ table op = some d ∧ resolver d.mode = some resolve ∧ resolve s = .ok info ∧
        d.execute info s = .ok u ∧ t = { u with PC := BitVec.ofNat 16 (u.PC.toNat + d.size) }

/-- A successful step of a table opcode advances PC by exactly its declared size, modulo 2^16; a halt leaves it.
41_dispatch_step.md, section 1 (decision D4); the halt as a next state is the model's choice (assumption log 1). -/
def Obligations.StepAdvancesPcBySize : Prop :=
  ∀ s t : State, step s = .next t →
    ∃ i : Instr, fetchInstr s = .ok i ∧
      t.PC = if i = .nop then s.PC else BitVec.ofNat 16 (s.PC.toNat + (encode i).length)

/-- The status numbers: 0 exactly for the fetched halt opcode, 1 exactly for any other completed step, 2 exactly for an unknown
opcode, and none exactly for a MemoryFault. 41_dispatch_step.md, section 1; 60_exceptions.md, section 1 (decisions D14, D22). -/
def Obligations.StepStatusNumbers : Prop :=
  ∀ s : State,
    ((stepStatus s).map statusCode = some 0 ↔ fetchOpcode s = .ok 0xEA#8) ∧
    ((stepStatus s).map statusCode = some 1 ↔ (∃ t, step s = .next t) ∧ fetchOpcode s ≠ .ok 0xEA#8) ∧
    ((stepStatus s).map statusCode = some 2 ↔ ∃ op, step s = .fault (.unknownOpcode op)) ∧
    (stepStatus s = none ↔ ∃ a left, step s = .fault (.memoryFault a left))

/-- No step is refused: every instruction has a meaning. 41_dispatch_step.md, section 1. -/
def Obligations.StepNeverRefuses : Prop :=
  (∀ (s : State) (r : Refusal), step s ≠ .refused r) ∧ (∀ (i : Instr) (s : State) (r : Refusal), exec i s ≠ .refused r)

/-- With the full 2^24 bytes of memory no access fails: every step completes or meets an unknown opcode, and every instruction
completes from every state. 20_memory.md, section 2; 00_scope.md, section 3 (decision D14); the halt as a next state is the model's
choice (assumption log 1). -/
def Obligations.FullMemoryNeverFaults : Prop :=
  ∀ s : State, s.cfg.memBytes = 2 ^ 24 →
    (∀ i : Instr, ∃ t, exec i s = .next t) ∧ ((∃ t, step s = .next t) ∨ ∃ op, step s = .fault (.unknownOpcode op))

/-- A MemoryFault reports an address at or above the capacity; the state it leaves has PC, A, P and every field no instruction writes
as before; unless PHA or PLA was running, that state is the state before the step. 60_exceptions.md, section 1 (decision D14); that
the fault carries the state it leaves is the model's choice (assumption log 5). -/
def Obligations.MemoryFaultEffects : Prop :=
  ∀ (s left : State) (a : Address), step s = .fault (.memoryFault a left) →
    s.cfg.memBytes ≤ a.toNat ∧ left.PC = s.PC ∧ left.A = s.A ∧ left.P = s.P ∧ SameFixedFields s left ∧
      (fetchInstr s ≠ .ok .pha → fetchInstr s ≠ .ok .pla → left = s)

/-! ### Invariants and whole-machine rules -/

/-- Every step keeps memory canonical, within the capacity, and the capacity in the spec's range. 20_memory.md, section 1;
00_scope.md, section 3; the canonical form is the model's own (assumption log 3). -/
def Obligations.StepKeepsStateInv : Prop :=
  ∀ s t : State, StateInv s → step s = .next t → StateInv t

/-- The reset state meets the invariant, and so does reset with any caller's PC, S and canonical image. 10_state.md, section 6;
70_reset_and_hazards.md, section 1. -/
def Obligations.ResetMeetsStateInv : Prop :=
  StateInv State.reset ∧
  ∀ (c : Config) (initPC initS : Word) (image : List Host.Cell), c.wellFormed = true → Memory.wf image →
    (∀ x ∈ image, x.1 < c.memBytes) → StateInv (State.resetWith c initPC initS image)

/-- What reset leaves: native mode, 16-bit widths, every register but PC and S zero, PC and S the caller's. 10_state.md, section 6
(decision D1). `State.reset` is reset with some PC and S (the two values are the model's choice, assumption log 2, and are not stated
here), with the spec's parameters (decisions D11, D14), and with nothing listed in memory, which is the model's choice (assumption
log 3). -/
def Obligations.ResetValues : Prop :=
  (∀ (c : Config) (initPC initS : Word) (image : List Host.Cell),
    let s := State.resetWith c initPC initS image
    s.PC = initPC ∧ s.S = initS ∧ s.A = 0#16 ∧ s.X = 0#16 ∧ s.Y = 0#16 ∧ s.D = 0#16 ∧ s.DBR = 0#8 ∧ s.PBR = 0#8 ∧ s.P = 0#8 ∧
      s.E = false ∧ s.B = false ∧ s.mem = image ∧ m8 s = false ∧ x8 s = false ∧ s8 s = false) ∧
  (∃ initPC initS : Word, State.reset = State.resetWith ⟨2 ^ 24, true⟩ initPC initS [])

/-- No step writes X, Y, D, DBR, PBR, E, B or a parameter; so the mode is fixed for a run. 10_state.md, sections 1, 2, 3 and 5;
60_exceptions.md, section 3 (decisions D3, D16, D17). -/
def Obligations.StepKeepsFixedFields : Prop :=
  ∀ s t : State, step s = .next t → SameFixedFields s t

/-- Only PHA changes memory, and only the stack bytes 00:S and, at 16 bits, 00:(S-1). 44_stack_pha_pla.md, section 1; 20_memory.md,
section 1 (decision D12). -/
def Obligations.OnlyPushChangesMemory : Prop :=
  ∀ (s t : State) (a : Nat), step s = .next t → memAt t a ≠ memAt s a →
    fetchInstr s = .ok .pha ∧ (a = s.S.toNat ∨ (¬ Accumulator8 s ∧ a = (s.S.toNat + 65535) % 65536))

/-- In emulation mode no step changes the high byte of S or of A. 10_state.md, sections 1 and 4; 44_stack_pha_pla.md, section 1
(decision D12). -/
def Obligations.EmulationKeepsHighBytes : Prop :=
  ∀ s t : State, s.E = true → step s = .next t → hiByte t.S = hiByte s.S ∧ hiByte t.A = hiByte s.A

/-! ### Registers, memory port, flags -/

/-- A dual-width register is one value: after `setLow(r, b)` the low byte is `b` and the high byte is unchanged, after `setWord(r, w)`
the word is `w` and the low byte is `w[7:0]`, in numbers and so whatever any byte order. 10_state.md R21. -/
def Obligations.RegisterViewsAgree : Prop :=
  (∀ (r : Word) (b : Byte), loByte (setLow r b) = b ∧ (setLow r b).toNat / 256 = r.toNat / 256 ∧
    (setLow r b).toNat = r.toNat / 256 * 256 + b.toNat) ∧
  (∀ (s : State) (w : Word),
    ∀ r ∈ [(s.setA w).A, ({ s with X := w } : State).X, ({ s with Y := w } : State).Y, (s.setS w).S, ({ s with D := w } : State).D],
      r = w ∧ (loByte r).toNat = w.toNat % 256)

/-- A bank byte and an offset compose to `bank * 2^16 + offset`, with nothing truncated: both can be read back.
20_memory.md R41. -/
def Obligations.BankAddressComposition : Prop :=
  ∀ (bank : Byte) (off : Word), (bankAddr bank off).toNat = bank.toNat * 65536 + off.toNat ∧
    (bankAddr bank off).toNat / 65536 = bank.toNat ∧ (bankAddr bank off).toNat % 65536 = off.toNat

/-- The byte port: in range a read gives the stored byte; a written byte is read back until the next write to its address, and no
other byte changes; out of range both raise MemoryFault of that address, and the state carried is the one before, so nothing is
stored. A read answers no state, so it has no side effect. 20_memory.md R42, R43 (decision D14). The canonical form of memory, which a
write keeps, is the model's own (assumption log 3), as is the state a fault carries (assumption log 5). -/
def Obligations.BytePortReadsAndWrites : Prop :=
  ∀ (s : State) (a : Address) (v : Byte),
    (a.toNat < s.cfg.memBytes → memRead1 a s = .ok (memAt s a.toNat)) ∧
    (s.cfg.memBytes ≤ a.toNat → memRead1 a s = .error (.memoryFault a s) ∧ memWrite1 a v s = .error (.memoryFault a s)) ∧
    (a.toNat < s.cfg.memBytes → Memory.wf s.mem →
      ∃ t, memWrite1 a v s = .ok t ∧ t = { s with mem := t.mem } ∧ Memory.wf t.mem ∧ memRead1 a t = .ok v ∧
        ∀ b : Nat, b ≠ a.toNat → memAt t b = memAt s b)

/-- A word read is the byte at `a`, high, and the byte at `a + 1` modulo 2^24, low; if a byte is out of range the fault names the
first that is. 20_memory.md, section 1 (decision D5). -/
def Obligations.WordReadComposition : Prop :=
  ∀ (s : State) (a : Address),
    let n := (a.toNat + 1) % 2 ^ 24
    (a.toNat < s.cfg.memBytes → n < s.cfg.memBytes →
      ∃ w, memRead2 a s = .ok w ∧ w.toNat = (memAt s a.toNat).toNat * 256 + (memAt s n).toNat) ∧
    (s.cfg.memBytes ≤ a.toNat → memRead2 a s = .error (.memoryFault a s)) ∧
    (a.toNat < s.cfg.memBytes → s.cfg.memBytes ≤ n → memRead2 a s = .error (.memoryFault (BitVec.ofNat 24 n) s))

/-- Byte order: of the word stored at `a`, a byte read at `a` sees the high byte and a byte read at `a + 1` the low byte, and an
instruction's word operand stands high byte first and is read the same way. At the last address of the space `a + 1` wraps, which is
left to WordReadComposition. 20_memory.md R48. -/
def Obligations.BigEndianByteOrder : Prop :=
  (∀ (s : State) (a : Address) (w : Word), a.toNat + 1 < 2 ^ 24 → memRead2 a s = .ok w →
    ∃ hi lo : Byte, memRead1 a s = .ok hi ∧ memRead1 (BitVec.ofNat 24 (a.toNat + 1)) s = .ok lo ∧
      hi.toNat = w.toNat / 256 ∧ lo.toNat = w.toNat % 256) ∧
  (∀ (addr : Word) (i : Instr), i = .ldaAbs addr ∨ i = .ldaAbsX addr ∨ i = .ldaAbsY addr →
    (encode i).tail.map BitVec.toNat = [addr.toNat / 256, addr.toNat % 256]) ∧
  (∀ s : State, fetchOp16 s = memRead2 (operandAddr s) s)

/-- The flags stand at bits 0 to 7 in the order N, V, M, X, D, I, Z, C, and writing one changes no other. 10_state.md, section 3
(decision D2). -/
def Obligations.FlagPositionsIndependent : Prop :=
  (∀ (f g : StatusFlag) (v : Bool) (p : Byte), getFlag f (putFlag g v p) = if f = g then v else getFlag f p) ∧
  (∀ p : Byte, p.toNat = (if getFlag .N p then 1 else 0) + (if getFlag .V p then 2 else 0) + (if getFlag .M p then 4 else 0) +
    (if getFlag .X p then 8 else 0) + (if getFlag .D p then 16 else 0) + (if getFlag .I p then 32 else 0) +
    (if getFlag .Z p then 64 else 0) + (if getFlag .C p then 128 else 0))

/-! ### Addressing modes -/

/-- Immediate and Accumulator resolve from every state, with no memory read; a mode outside the eleven has no resolver.
40_addressing.md, sections 2 and 3 (decisions D3, D7, D13, D19). -/
def Obligations.ImmediateAndAccumulatorResolve : Prop :=
  (∀ s : State, Resolves .immediate s (s.PBR.toNat * 65536 + (s.PC.toNat + 1) % 65536) 0 ∧ Resolves .accumulator s 0 0) ∧
  (∀ m : Mode, resolver m = none ↔ ∃ name, m = .unresolved name)

/-- Absolute, AbsoluteX, AbsoluteY: the data bank, the word operand, and the index at its width added in 24 bits.
40_addressing.md, section 2 (decisions D5, D7). -/
def Obligations.AbsoluteModesResolve : Prop :=
  ∀ (s : State) (op16 : Word), fetchOp16 s = .ok op16 →
    Resolves .absolute s (s.DBR.toNat * 65536 + op16.toNat) 0 ∧
    Resolves .absoluteX s ((s.DBR.toNat * 65536 + op16.toNat + indexValue s s.X) % 2 ^ 24) 0 ∧
    Resolves .absoluteY s ((s.DBR.toNat * 65536 + op16.toNat + indexValue s s.Y) % 2 ^ 24) 0

/-- DirectPage, DirectPageX, DirectPageY: bank 0, sums modulo 2^16, the index width selected before the addition, no page wrap in
emulation mode. 40_addressing.md, section 2; 90_conflicts.md C7 (decisions D6, D7, D24). -/
def Obligations.DirectPageModesResolve : Prop :=
  ∀ (s : State) (op8 : Byte), fetchOp8 s = .ok op8 →
    Resolves .directPage s ((s.D.toNat + op8.toNat) % 65536) 0 ∧
    Resolves .directPageX s ((s.D.toNat + op8.toNat + indexValue s s.X) % 65536) 0 ∧
    Resolves .directPageY s ((s.D.toNat + op8.toNat + indexValue s s.Y) % 65536) 0

/-- AbsoluteIndirect gives the raw operand; AbsoluteIndirectX the word at PBR:ptr and that pointer's own address; DirectPageIndirectX
the word at 00:ptr, with all 16 bits of X at every width. 40_addressing.md, section 2; 90_conflicts.md C2 (decisions D6, D7, D8). -/
def Obligations.IndirectModesResolve : Prop :=
  (∀ (s : State) (op16 : Word), fetchOp16 s = .ok op16 →
    Resolves .absoluteIndirect s op16.toNat 0 ∧
    (let p := s.PBR.toNat * 65536 + (op16.toNat + indexValue s s.X) % 65536
     p < s.cfg.memBytes → (p + 1) % 2 ^ 24 < s.cfg.memBytes →
       Resolves .absoluteIndirectX s ((memAt s p).toNat * 256 + (memAt s ((p + 1) % 2 ^ 24)).toNat) p)) ∧
  (∀ (s : State) (op8 : Byte), fetchOp8 s = .ok op8 →
    (let p := (s.D.toNat + s.X.toNat + op8.toNat) % 65536
     p < s.cfg.memBytes → p + 1 < s.cfg.memBytes →
       Resolves .directPageIndirectX s ((memAt s p).toNat * 256 + (memAt s (p + 1)).toNat) 0))

/-- A resolver fails only by a MemoryFault of a read at or above the capacity, and then nothing has changed. 40_addressing.md,
section 3 (decision D14). -/
def Obligations.ResolverFailsOnlyByMemory : Prop :=
  ∀ (m : Mode) (resolve : State → Except Fault Info) (s : State) (f : Fault), resolver m = some resolve → resolve s = .error f →
    ∃ a : Address, s.cfg.memBytes ≤ a.toNat ∧ f = .memoryFault a s

/-! ### Instructions: results and where they complete

exec is given an instruction whose operand bytes have been read (assumption log 24): the faults of exec are those of data, pointer and
stack bytes, and the fault of an operand byte is the step's, stated by OperandBytesReadOrFault. -/

/-- `REP #mask`, every flag whose bit is 1 in the mask becomes 0 and every other flag is kept; PC advances by 2. exec is given the mask
already read (the model's choice, assumption log 24), so exec completes from every state; the MemoryFault of the mask byte is the
step's, in OperandBytesReadOrFault. 42_status_rep_sep.md, R110's rule (decision D2). -/
def Obligations.RepClearsMaskedFlags : Prop :=
  ∀ (s : State) (mask : Byte), ∃ p : Byte,
    exec (.rep mask) s = .next { s with P := p, PC := BitVec.ofNat 16 (s.PC.toNat + 2) } ∧
      p = s.P &&& ~~~mask ∧ ∀ f : StatusFlag, getFlag f p = (getFlag f s.P && !getFlag f mask)

/-- `SEP #mask`, every flag whose bit is 1 in the mask becomes 1 and every other flag is kept; PC advances by 2. exec is given the mask
already read (the model's choice, assumption log 24), so exec completes from every state; the MemoryFault of the mask byte is the
step's, in OperandBytesReadOrFault. 42_status_rep_sep.md, R111's rule (decision D2). -/
def Obligations.SepSetsMaskedFlags : Prop :=
  ∀ (s : State) (mask : Byte), ∃ p : Byte,
    exec (.sep mask) s = .next { s with P := p, PC := BitVec.ofNat 16 (s.PC.toNat + 2) } ∧
      p = s.P ||| mask ∧ ∀ f : StatusFlag, getFlag f p = (getFlag f s.P || getFlag f mask)

/-- A width flag written by REP or SEP selects the width of the very next instruction, and no register value changes with it.
42_status_rep_sep.md; 10_state.md, section 4; 70_reset_and_hazards.md, section 2 (decisions D2, D25). -/
def Obligations.WidthChangeIsImmediate : Prop :=
  ∀ (s t : State) (mask : Byte),
    (exec (.sep mask) s = .next t →
      (getFlag .M mask = true → m8 t = true) ∧ (getFlag .X mask = true → x8 t = true) ∧ t.A = s.A ∧ t.S = s.S ∧
        SameFixedFields s t) ∧
    (exec (.rep mask) s = .next t →
      (getFlag .M mask = true → m8 t = s.E) ∧ (getFlag .X mask = true → x8 t = s.E) ∧ t.A = s.A ∧ t.S = s.S ∧
        SameFixedFields s t)

/-- `LDA $dp`: the effective address is `(D + dp) mod 2^16` in bank 0. 43_load_lda.md; 40_addressing.md, section 2
(decisions D5, D11, D14, D24).
The faults are those of its data bytes; an operand byte's fault is in OperandBytesReadOrFault (assumption log 24). -/
def Obligations.LdaDirectPageLoads : Prop :=
  ∀ (s : State) (dp : Byte), LoadsFrom (.ldaDp dp) 2 s ((s.D.toNat + dp.toNat) % 65536)

/-- `LDA $addr`: the effective address is `DBR:addr`, whatever the index flags. 43_load_lda.md; 40_addressing.md, section 2
(decisions D5, D9, D11, D14).
The faults are those of its data bytes; an operand byte's fault is in OperandBytesReadOrFault (assumption log 24). -/
def Obligations.LdaAbsoluteLoads : Prop :=
  ∀ (s : State) (addr : Word), LoadsFrom (.ldaAbs addr) 3 s (s.DBR.toNat * 65536 + addr.toNat)

/-- `LDA $addr,X`: DBR:addr plus X at the index width, in 24 bits. 43_load_lda.md; 40_addressing.md, section 2
(decisions D5, D9, D11, D14).
The faults are those of its data bytes; an operand byte's fault is in OperandBytesReadOrFault (assumption log 24). -/
def Obligations.LdaAbsoluteXLoads : Prop :=
  ∀ (s : State) (addr : Word),
    LoadsFrom (.ldaAbsX addr) 3 s ((s.DBR.toNat * 65536 + addr.toNat + indexValue s s.X) % 2 ^ 24)

/-- `LDA $addr,Y`: DBR:addr plus Y at the index width, in 24 bits. 43_load_lda.md; 40_addressing.md, section 2
(decisions D5, D9, D11, D14).
The faults are those of its data bytes; an operand byte's fault is in OperandBytesReadOrFault (assumption log 24). -/
def Obligations.LdaAbsoluteYLoads : Prop :=
  ∀ (s : State) (addr : Word),
    LoadsFrom (.ldaAbsY addr) 3 s ((s.DBR.toNat * 65536 + addr.toNat + indexValue s s.Y) % 2 ^ 24)

/-- `LDA $dp,X`: `(D + dp + X) mod 2^16` in bank 0, X at the index width. 43_load_lda.md; 40_addressing.md, section 2;
90_conflicts.md C7 (decisions D5, D6, D9, D11, D14, D24).
The faults are those of its data bytes; an operand byte's fault is in OperandBytesReadOrFault (assumption log 24). -/
def Obligations.LdaDirectPageXLoads : Prop :=
  ∀ (s : State) (dp : Byte), LoadsFrom (.ldaDpX dp) 2 s ((s.D.toNat + dp.toNat + indexValue s s.X) % 65536)

/-- `LDA ($dp,X)`: the pointer is at `(D + X + dp) mod 2^16` in bank 0, with all 16 bits of X; the effective address is the
big-endian word there, in bank 0; a pointer byte out of range faults before any data is read. 43_load_lda.md; 40_addressing.md,
section 2; 90_conflicts.md C2 (decisions D5, D6, D8, D9, D11, D14).
The faults are those of its pointer and data bytes; an operand byte's fault is in OperandBytesReadOrFault (assumption log 24). -/
def Obligations.LdaIndexedIndirectLoads : Prop :=
  ∀ (s : State) (dp : Byte),
    let p := (s.D.toNat + s.X.toNat + dp.toNat) % 65536
    (p < s.cfg.memBytes → p + 1 < s.cfg.memBytes →
      LoadsFrom (.ldaDpIndX dp) 2 s ((memAt s p).toNat * 256 + (memAt s (p + 1)).toNat)) ∧
    (s.cfg.memBytes ≤ p → exec (.ldaDpIndX dp) s = .fault (.memoryFault (BitVec.ofNat 24 p) s)) ∧
    (p < s.cfg.memBytes → s.cfg.memBytes ≤ p + 1 →
      exec (.ldaDpIndX dp) s = .fault (.memoryFault (BitVec.ofNat 24 (p + 1)) s))

/-- `PHA`: at 8 bits the low byte of A is stored at 00:S and S counts down; at 16 bits the high byte goes to 00:S and the low byte to
00:(S-1), and S counts down twice. 44_stack_pha_pla.md (decisions D12, D13). -/
def Obligations.PhaPushes : Prop :=
  ∀ s : State,
    (Accumulator8 s → s.S.toNat < s.cfg.memBytes →
      exec .pha s = .next { s with
        mem := Memory.write s.mem s.S.toNat (BitVec.ofNat 8 s.A.toNat)
        S := pushedS s.E s.S
        PC := BitVec.ofNat 16 (s.PC.toNat + 1) }) ∧
    (¬ Accumulator8 s → s.S.toNat < s.cfg.memBytes → (s.S.toNat + 65535) % 65536 < s.cfg.memBytes →
      exec .pha s = .next { s with
        mem := Memory.write (Memory.write s.mem s.S.toNat (BitVec.ofNat 8 (s.A.toNat / 256)))
          ((s.S.toNat + 65535) % 65536) (BitVec.ofNat 8 s.A.toNat)
        S := BitVec.ofNat 16 (s.S.toNat + 65534)
        PC := BitVec.ofNat 16 (s.PC.toNat + 1) })

/-- Where PHA faults: on the first byte nothing has changed; on the second byte of a 16-bit push the first is written and S counted
down once. 44_stack_pha_pla.md, section 1; 60_exceptions.md, section 1 (decisions D12, D14); that the fault carries the state it leaves
is the model's choice (assumption log 5). -/
def Obligations.PhaFaults : Prop :=
  ∀ s : State,
    (s.cfg.memBytes ≤ s.S.toNat → exec .pha s = .fault (.memoryFault (BitVec.ofNat 24 s.S.toNat) s)) ∧
    (¬ Accumulator8 s → s.S.toNat < s.cfg.memBytes → s.cfg.memBytes ≤ (s.S.toNat + 65535) % 65536 →
      exec .pha s = .fault (.memoryFault (BitVec.ofNat 24 ((s.S.toNat + 65535) % 65536)) { s with
        mem := Memory.write s.mem s.S.toNat (BitVec.ofNat 8 (s.A.toNat / 256))
        S := BitVec.ofNat 16 (s.S.toNat + 65535) }))

/-- `PLA`: at 8 bits S counts up and the byte at 00:S is loaded into the low half of A; at 16 bits the low byte comes from S+1 and the
high byte from S+2, and S counts up twice; N and Z as for a load. 44_stack_pha_pla.md (decisions D11, D12, D13). -/
def Obligations.PlaPulls : Prop :=
  ∀ s : State,
    (Accumulator8 s → (pulledS s.E s.S).toNat < s.cfg.memBytes →
      exec .pla s = .next (afterLoad8 { s with S := pulledS s.E s.S } (memAt s (pulledS s.E s.S).toNat) 1)) ∧
    (¬ Accumulator8 s → (s.S.toNat + 1) % 65536 < s.cfg.memBytes → (s.S.toNat + 2) % 65536 < s.cfg.memBytes →
      exec .pla s = .next (afterLoad16 { s with S := BitVec.ofNat 16 (s.S.toNat + 2) }
        (memAt s ((s.S.toNat + 2) % 65536)) (memAt s ((s.S.toNat + 1) % 65536)) 1))

/-- Where PLA faults: S was counted up once, or twice for the second byte of a 16-bit pull, and A is unchanged.
44_stack_pha_pla.md, section 1; 60_exceptions.md, section 1; 90_conflicts.md C10 (decisions D12, D14); that the fault carries the state
it leaves is the model's choice (assumption log 5). -/
def Obligations.PlaFaults : Prop :=
  ∀ s : State,
    (s.cfg.memBytes ≤ (pulledS s.E s.S).toNat →
      exec .pla s = .fault (.memoryFault (BitVec.ofNat 24 (pulledS s.E s.S).toNat) { s with S := pulledS s.E s.S })) ∧
    (¬ Accumulator8 s → (s.S.toNat + 1) % 65536 < s.cfg.memBytes → s.cfg.memBytes ≤ (s.S.toNat + 2) % 65536 →
      exec .pla s = .fault (.memoryFault (BitVec.ofNat 24 ((s.S.toNat + 2) % 65536))
        { s with S := BitVec.ofNat 16 (s.S.toNat + 2) }))

/-- The primitives' round trip: a pushed byte is pulled back and S restored in either mode, a pushed word in native mode, for every
starting S. 44_stack_pha_pla.md, section 2 (derived there from the primitives). -/
def Obligations.PushPullRoundTrip : Prop :=
  (∀ (s t : State) (b : Byte), Memory.wf s.mem → pushByte b s = .ok t → ∃ u, pullByte t = .ok (b, u) ∧ u.S = s.S) ∧
  (∀ (s t : State) (w : Word), Memory.wf s.mem → s.E = false → pushWord w s = .ok t →
    ∃ u, pullWord t = .ok (w, u) ∧ u.S = s.S)

/-- PHA then PLA completes and restores A and S in every mode and width, leaving the pushed bytes behind. 44_stack_pha_pla.md,
section 2 (derived there; decision D12). -/
def Obligations.PhaPlaRestores : Prop :=
  ∀ s t : State, StateInv s → exec .pha s = .next t →
    ∃ u, exec .pla t = .next u ∧ u.A = s.A ∧ u.S = s.S ∧ u.mem = t.mem ∧ u.PC = BitVec.ofNat 16 (s.PC.toNat + 2)

/-- A byte PHA stores in the instruction stream is the opcode the very next fetch reads. 20_memory.md, section 4;
70_reset_and_hazards.md, section 2 (decision D18). -/
def Obligations.PushedByteIsFetched : Prop :=
  ∀ s t : State, Memory.wf s.mem → exec .pha s = .next t →
    (Accumulator8 s → (bankAddr t.PBR t.PC).toNat = s.S.toNat → fetchOpcode t = .ok (BitVec.ofNat 8 s.A.toNat)) ∧
    (¬ Accumulator8 s → (bankAddr t.PBR t.PC).toNat = s.S.toNat → fetchOpcode t = .ok (BitVec.ofNat 8 (s.A.toNat / 256))) ∧
    (¬ Accumulator8 s → (bankAddr t.PBR t.PC).toNat = (s.S.toNat + 65535) % 65536 →
      fetchOpcode t = .ok (BitVec.ofNat 8 s.A.toNat))

/-! ### Frames -/

/-- Frame of the six LDA instructions: A, N, Z and PC may change and nothing else does; at 8 bits the high byte of A is kept; no byte
of memory changes. 43_load_lda.md (decision D11). -/
def Obligations.LoadFrame : Prop :=
  ∀ (i : Instr) (s t : State), isLoad i = true → exec i s = .next t →
    SameFixedFields s t ∧ t.S = s.S ∧ SameFlagsButNZ s t ∧ SameMemory s t ∧
      (Accumulator8 s → t.A.toNat / 256 = s.A.toNat / 256) ∧ (s.cfg.loadSetsNZ = false → t.P = s.P)

/-- Frame of REP and SEP: P and PC may change and nothing else does; a flag whose mask bit is 0 is kept; no byte of memory changes.
42_status_rep_sep.md. -/
def Obligations.StatusFrame : Prop :=
  ∀ (i : Instr) (mask : Byte) (s t : State), i = .rep mask ∨ i = .sep mask → exec i s = .next t →
    SameFixedFields s t ∧ t.A = s.A ∧ t.S = s.S ∧ SameMemory s t ∧
      ∀ f : StatusFlag, getFlag f mask = false → getFlag f t.P = getFlag f s.P

/-- Frame of PHA: S, PC and the pushed bytes may change and nothing else does. At 8 bits the byte stored to is 00:S; at 16 bits the
bytes are 00:S and 00:(S-1). 44_stack_pha_pla.md (decision D12). -/
def Obligations.PushFrame : Prop :=
  ∀ s t : State, exec .pha s = .next t →
    SameFixedFields s t ∧ t.A = s.A ∧ t.P = s.P ∧
      (Accumulator8 s → ∀ a : Nat, a ≠ (stackAddr s).toNat → memAt t a = memAt s a) ∧
      (¬ Accumulator8 s → ∀ a : Nat, a ≠ (stackAddr s).toNat → a ≠ (stackAddr (decS s)).toNat → memAt t a = memAt s a)

/-- Frame of PLA: A, S, N, Z and PC may change and nothing else does; at 8 bits the high byte of A is kept; no byte of memory changes.
44_stack_pha_pla.md (decisions D11, D12). -/
def Obligations.PullFrame : Prop :=
  ∀ s t : State, exec .pla s = .next t →
    SameFixedFields s t ∧ SameFlagsButNZ s t ∧ SameMemory s t ∧
      (Accumulator8 s → t.A.toNat / 256 = s.A.toNat / 256) ∧ (s.cfg.loadSetsNZ = false → t.P = s.P)

/-! ### The host -/

/-- The loader copies a byte sequence to consecutive addresses from its start and changes nothing else; it completes when every
address is in range. 70_reset_and_hazards.md, section 1 (decision D15). That a sequence running past 0xFFFFFF goes on at address 0 is
the model's choice, on which the spec is silent (assumption log 26). -/
def Obligations.LoaderPlacesSequence : Prop :=
  ∀ (a : Address) (bytes : List Byte) (s : State), Memory.wf s.mem → bytes.length ≤ 2 ^ 24 →
    (∀ k < bytes.length, (a.toNat + k) % 2 ^ 24 < s.cfg.memBytes) →
      ∃ t, loadSequence a bytes s = .ok t ∧ t = { s with mem := t.mem } ∧
        (∀ (k : Nat) (b : Byte), bytes[k]? = some b → memAt t ((a.toNat + k) % 2 ^ 24) = b) ∧
        (∀ b : Nat, (∀ k < bytes.length, (a.toNat + k) % 2 ^ 24 ≠ b) → memAt t b = memAt s b)

/-! ### Operand bytes of a step -/

/-- Which bytes after a legal opcode a step reads, and where it faults on one. An opcode with an operand whose first byte, at
`PBR:(PC+1 mod 2^16)`, is out of range faults at that address; an opcode with an operand word whose second byte, one further in the
flat 24-bit space, is out of range faults there; nothing has changed, and no status is reported. Otherwise the step runs the
instruction made of exactly the bytes its form has, whatever stands after them. 30_encoding.md R60, R61; 40_addressing.md R76, R88;
60_exceptions.md R144; the exceptions of R110, R111 and R117 to R122 (decisions D3, D5, D9, D14). That the bytes are read when the
instruction is decoded, and that a fault carries its state, are the model's choices (assumption log 24, 5). -/
def Obligations.OperandBytesReadOrFault : Prop :=
  ∀ s : State,
    let pc := s.PBR.toNat * 65536 + s.PC.toNat
    let first := s.PBR.toNat * 65536 + (s.PC.toNat + 1) % 65536
    let second := (first + 1) % 2 ^ 24
    let bare := [0x48#8, 0x68#8, 0xEA#8]
    let byteForms := [0xA1#8, 0xA5#8, 0xB5#8, 0xC2#8, 0xE2#8]
    let wordForms := [0xAD#8, 0xB9#8, 0xBD#8]
    pc < s.cfg.memBytes →
      (memAt s pc ∈ byteForms ++ wordForms → s.cfg.memBytes ≤ first →
        step s = .fault (.memoryFault (BitVec.ofNat 24 first) s) ∧ stepStatus s = none) ∧
      (memAt s pc ∈ wordForms → first < s.cfg.memBytes → s.cfg.memBytes ≤ second →
        step s = .fault (.memoryFault (BitVec.ofNat 24 second) s) ∧ stepStatus s = none) ∧
      (memAt s pc ∈ bare → ∃ i, encode i = [memAt s pc] ∧ fetchInstr s = .ok i ∧ step s = exec i s) ∧
      (memAt s pc ∈ byteForms → first < s.cfg.memBytes →
        ∃ i, encode i = [memAt s pc, memAt s first] ∧ fetchInstr s = .ok i ∧ step s = exec i s) ∧
      (memAt s pc ∈ wordForms → first < s.cfg.memBytes → second < s.cfg.memBytes →
        ∃ i, encode i = [memAt s pc, memAt s first, memAt s second] ∧ fetchInstr s = .ok i ∧ step s = exec i s)
end

