-- ==== Sys2Proof/Laws/Bits.lean ====
section
/-! SUPPORT. The byte and address helpers as numbers. -/

namespace Sys2Proof.Machine

theorem toNat_hiByte (w : Word) : (hiByte w).toNat = w.toNat / 256 := by
  have := w.isLt
  simp [hiByte, BitVec.extractLsb'_toNat, Nat.shiftRight_eq_div_pow]
  omega

theorem toNat_loByte (w : Word) : (loByte w).toNat = w.toNat % 256 := by
  simp [loByte, BitVec.extractLsb'_toNat]

theorem toNat_beWord (hi lo : Byte) : (beWord hi lo).toNat = hi.toNat * 256 + lo.toNat := by
  have hh := hi.isLt
  have hl := lo.isLt
  have h := Nat.shiftLeft_add_eq_or_of_lt hl hi.toNat
  rw [Nat.shiftLeft_eq] at h
  have e : (hi.toNat % 2 ^ 16) <<< 8 % 2 ^ 16 = hi.toNat * 2 ^ 8 := by rw [Nat.shiftLeft_eq]; omega
  have e' : lo.toNat % 2 ^ 16 = lo.toNat := by omega
  simp only [beWord, BitVec.toNat_or, BitVec.toNat_shiftLeft, BitVec.toNat_setWidth]
  rw [e, e', ← h]

theorem toNat_bankAddr (bank : Byte) (off : Word) : (bankAddr bank off).toNat = bank.toNat * 65536 + off.toNat := by
  have hb := bank.isLt
  have ho := off.isLt
  have h := Nat.shiftLeft_add_eq_or_of_lt ho bank.toNat
  rw [Nat.shiftLeft_eq] at h
  have e : (bank.toNat % 2 ^ 24) <<< 16 % 2 ^ 24 = bank.toNat * 2 ^ 16 := by rw [Nat.shiftLeft_eq]; omega
  have e' : off.toNat % 2 ^ 24 = off.toNat := by omega
  simp only [bankAddr, BitVec.toNat_or, BitVec.toNat_shiftLeft, BitVec.toNat_setWidth]
  rw [e, e', ← h]

theorem beWord_hi_lo (w : Word) : beWord (hiByte w) (loByte w) = w := by
  apply BitVec.eq_of_toNat_eq
  rw [toNat_beWord, toNat_hiByte, toNat_loByte]
  omega

@[simp] theorem hiByte_beWord (hi lo : Byte) : hiByte (beWord hi lo) = hi := by
  apply BitVec.eq_of_toNat_eq
  have := lo.isLt
  rw [toNat_hiByte, toNat_beWord]
  omega

@[simp] theorem loByte_beWord (hi lo : Byte) : loByte (beWord hi lo) = lo := by
  apply BitVec.eq_of_toNat_eq
  have := lo.isLt
  rw [toNat_loByte, toNat_beWord]
  omega

theorem setLow_eq_beWord (r : Word) (b : Byte) : setLow r b = beWord (hiByte r) b := by
  ext k hk
  simp only [setLow, beWord, hiByte]
  have : k = 0 ∨ k = 1 ∨ k = 2 ∨ k = 3 ∨ k = 4 ∨ k = 5 ∨ k = 6 ∨ k = 7 ∨ k = 8 ∨ k = 9 ∨ k = 10 ∨ k = 11 ∨ k = 12 ∨ k = 13
      ∨ k = 14 ∨ k = 15 := by omega
  rcases this with h | h | h | h | h | h | h | h | h | h | h | h | h | h | h | h <;> subst h <;> simp

/-- An 8-bit write replaces the low byte and keeps the high byte (R21). -/
theorem toNat_setLow (r : Word) (b : Byte) : (setLow r b).toNat = r.toNat / 256 * 256 + b.toNat := by
  rw [setLow_eq_beWord, toNat_beWord, toNat_hiByte]

end Sys2Proof.Machine
end

