-- ==== Sys2Proof/Laws/State.lean ====
section
/-! SUPPORT. One lemma per field per update of `State`, each true by definition. -/

namespace Sys2Proof.Machine

variable (s : State)

@[simp] theorem State.setA_A (v : Word) : (s.setA v).A = v := rfl
@[simp] theorem State.setA_X (v : Word) : (s.setA v).X = s.X := rfl
@[simp] theorem State.setA_Y (v : Word) : (s.setA v).Y = s.Y := rfl
@[simp] theorem State.setA_S (v : Word) : (s.setA v).S = s.S := rfl
@[simp] theorem State.setA_D (v : Word) : (s.setA v).D = s.D := rfl
@[simp] theorem State.setA_PC (v : Word) : (s.setA v).PC = s.PC := rfl
@[simp] theorem State.setA_DBR (v : Word) : (s.setA v).DBR = s.DBR := rfl
@[simp] theorem State.setA_PBR (v : Word) : (s.setA v).PBR = s.PBR := rfl
@[simp] theorem State.setA_P (v : Word) : (s.setA v).P = s.P := rfl
@[simp] theorem State.setA_E (v : Word) : (s.setA v).E = s.E := rfl
@[simp] theorem State.setA_B (v : Word) : (s.setA v).B = s.B := rfl
@[simp] theorem State.setA_mem (v : Word) : (s.setA v).mem = s.mem := rfl
@[simp] theorem State.setA_cfg (v : Word) : (s.setA v).cfg = s.cfg := rfl

@[simp] theorem State.setS_A (v : Word) : (s.setS v).A = s.A := rfl
@[simp] theorem State.setS_X (v : Word) : (s.setS v).X = s.X := rfl
@[simp] theorem State.setS_Y (v : Word) : (s.setS v).Y = s.Y := rfl
@[simp] theorem State.setS_S (v : Word) : (s.setS v).S = v := rfl
@[simp] theorem State.setS_D (v : Word) : (s.setS v).D = s.D := rfl
@[simp] theorem State.setS_PC (v : Word) : (s.setS v).PC = s.PC := rfl
@[simp] theorem State.setS_DBR (v : Word) : (s.setS v).DBR = s.DBR := rfl
@[simp] theorem State.setS_PBR (v : Word) : (s.setS v).PBR = s.PBR := rfl
@[simp] theorem State.setS_P (v : Word) : (s.setS v).P = s.P := rfl
@[simp] theorem State.setS_E (v : Word) : (s.setS v).E = s.E := rfl
@[simp] theorem State.setS_B (v : Word) : (s.setS v).B = s.B := rfl
@[simp] theorem State.setS_mem (v : Word) : (s.setS v).mem = s.mem := rfl
@[simp] theorem State.setS_cfg (v : Word) : (s.setS v).cfg = s.cfg := rfl

@[simp] theorem State.setPC_A (v : Word) : (s.setPC v).A = s.A := rfl
@[simp] theorem State.setPC_X (v : Word) : (s.setPC v).X = s.X := rfl
@[simp] theorem State.setPC_Y (v : Word) : (s.setPC v).Y = s.Y := rfl
@[simp] theorem State.setPC_S (v : Word) : (s.setPC v).S = s.S := rfl
@[simp] theorem State.setPC_D (v : Word) : (s.setPC v).D = s.D := rfl
@[simp] theorem State.setPC_PC (v : Word) : (s.setPC v).PC = v := rfl
@[simp] theorem State.setPC_DBR (v : Word) : (s.setPC v).DBR = s.DBR := rfl
@[simp] theorem State.setPC_PBR (v : Word) : (s.setPC v).PBR = s.PBR := rfl
@[simp] theorem State.setPC_P (v : Word) : (s.setPC v).P = s.P := rfl
@[simp] theorem State.setPC_E (v : Word) : (s.setPC v).E = s.E := rfl
@[simp] theorem State.setPC_B (v : Word) : (s.setPC v).B = s.B := rfl
@[simp] theorem State.setPC_mem (v : Word) : (s.setPC v).mem = s.mem := rfl
@[simp] theorem State.setPC_cfg (v : Word) : (s.setPC v).cfg = s.cfg := rfl

@[simp] theorem State.setP_A (v : Byte) : (s.setP v).A = s.A := rfl
@[simp] theorem State.setP_X (v : Byte) : (s.setP v).X = s.X := rfl
@[simp] theorem State.setP_Y (v : Byte) : (s.setP v).Y = s.Y := rfl
@[simp] theorem State.setP_S (v : Byte) : (s.setP v).S = s.S := rfl
@[simp] theorem State.setP_D (v : Byte) : (s.setP v).D = s.D := rfl
@[simp] theorem State.setP_PC (v : Byte) : (s.setP v).PC = s.PC := rfl
@[simp] theorem State.setP_DBR (v : Byte) : (s.setP v).DBR = s.DBR := rfl
@[simp] theorem State.setP_PBR (v : Byte) : (s.setP v).PBR = s.PBR := rfl
@[simp] theorem State.setP_P (v : Byte) : (s.setP v).P = v := rfl
@[simp] theorem State.setP_E (v : Byte) : (s.setP v).E = s.E := rfl
@[simp] theorem State.setP_B (v : Byte) : (s.setP v).B = s.B := rfl
@[simp] theorem State.setP_mem (v : Byte) : (s.setP v).mem = s.mem := rfl
@[simp] theorem State.setP_cfg (v : Byte) : (s.setP v).cfg = s.cfg := rfl

@[simp] theorem State.setMem_A (v : List Host.Cell) : (s.setMem v).A = s.A := rfl
@[simp] theorem State.setMem_X (v : List Host.Cell) : (s.setMem v).X = s.X := rfl
@[simp] theorem State.setMem_Y (v : List Host.Cell) : (s.setMem v).Y = s.Y := rfl
@[simp] theorem State.setMem_S (v : List Host.Cell) : (s.setMem v).S = s.S := rfl
@[simp] theorem State.setMem_D (v : List Host.Cell) : (s.setMem v).D = s.D := rfl
@[simp] theorem State.setMem_PC (v : List Host.Cell) : (s.setMem v).PC = s.PC := rfl
@[simp] theorem State.setMem_DBR (v : List Host.Cell) : (s.setMem v).DBR = s.DBR := rfl
@[simp] theorem State.setMem_PBR (v : List Host.Cell) : (s.setMem v).PBR = s.PBR := rfl
@[simp] theorem State.setMem_P (v : List Host.Cell) : (s.setMem v).P = s.P := rfl
@[simp] theorem State.setMem_E (v : List Host.Cell) : (s.setMem v).E = s.E := rfl
@[simp] theorem State.setMem_B (v : List Host.Cell) : (s.setMem v).B = s.B := rfl
@[simp] theorem State.setMem_mem (v : List Host.Cell) : (s.setMem v).mem = v := rfl
@[simp] theorem State.setMem_cfg (v : List Host.Cell) : (s.setMem v).cfg = s.cfg := rfl

@[simp] theorem byteAt_setA (v : Word) (a : Address) : byteAt (s.setA v) a = byteAt s a := rfl
@[simp] theorem byteAt_setS (v : Word) (a : Address) : byteAt (s.setS v) a = byteAt s a := rfl
@[simp] theorem byteAt_setPC (v : Word) (a : Address) : byteAt (s.setPC v) a = byteAt s a := rfl
@[simp] theorem byteAt_setP (v : Byte) (a : Address) : byteAt (s.setP v) a = byteAt s a := rfl

@[simp] theorem inRange_setA (v : Word) (a : Address) : inRange (s.setA v) a = inRange s a := rfl
@[simp] theorem inRange_setS (v : Word) (a : Address) : inRange (s.setS v) a = inRange s a := rfl
@[simp] theorem inRange_setPC (v : Word) (a : Address) : inRange (s.setPC v) a = inRange s a := rfl
@[simp] theorem inRange_setP (v : Byte) (a : Address) : inRange (s.setP v) a = inRange s a := rfl
@[simp] theorem inRange_setMem (m : List Host.Cell) (a : Address) : inRange (s.setMem m) a = inRange s a := rfl

end Sys2Proof.Machine
end

