-- ==== Sys2Proof/Laws/Flags.lean ====
section
/-! SUPPORT. What a flag computation leaves unchanged: everything but P. -/

namespace Sys2Proof.Machine

variable (s : State) (n z : Bool)

/-- `writeNZ` changes P and nothing else. -/
theorem writeNZ_eq_setP : writeNZ n z s = s.setP (writeNZ n z s).P := by
  unfold writeNZ
  split <;> rfl

@[simp] theorem writeNZ_A : (writeNZ n z s).A = s.A := by rw [writeNZ_eq_setP]; rfl
@[simp] theorem writeNZ_X : (writeNZ n z s).X = s.X := by rw [writeNZ_eq_setP]; rfl
@[simp] theorem writeNZ_Y : (writeNZ n z s).Y = s.Y := by rw [writeNZ_eq_setP]; rfl
@[simp] theorem writeNZ_S : (writeNZ n z s).S = s.S := by rw [writeNZ_eq_setP]; rfl
@[simp] theorem writeNZ_D : (writeNZ n z s).D = s.D := by rw [writeNZ_eq_setP]; rfl
@[simp] theorem writeNZ_PC : (writeNZ n z s).PC = s.PC := by rw [writeNZ_eq_setP]; rfl
@[simp] theorem writeNZ_DBR : (writeNZ n z s).DBR = s.DBR := by rw [writeNZ_eq_setP]; rfl
@[simp] theorem writeNZ_PBR : (writeNZ n z s).PBR = s.PBR := by rw [writeNZ_eq_setP]; rfl
@[simp] theorem writeNZ_E : (writeNZ n z s).E = s.E := by rw [writeNZ_eq_setP]; rfl
@[simp] theorem writeNZ_B : (writeNZ n z s).B = s.B := by rw [writeNZ_eq_setP]; rfl
@[simp] theorem writeNZ_mem : (writeNZ n z s).mem = s.mem := by rw [writeNZ_eq_setP]; rfl
@[simp] theorem writeNZ_cfg : (writeNZ n z s).cfg = s.cfg := by rw [writeNZ_eq_setP]; rfl

/-- The status byte after `writeNZ`. -/
theorem writeNZ_P : (writeNZ n z s).P = if s.cfg.loadSetsNZ then putFlag .Z z (putFlag .N n s.P) else s.P := by
  unfold writeNZ
  split <;> rfl

end Sys2Proof.Machine
end

