-- ==== Sys2Proof/Laws/Memory.lean ====
section
/-! SUPPORT. The laws of the memory store: a read after a write, other addresses, the canonical form, and the bound on listed
addresses. -/

namespace Sys2Proof.Machine

/-- A byte that is not listed reads as `Memory.unlisted`. -/
theorem Memory.read_of_not_listed {m : List Host.Cell} {a : Nat} (h : ∀ c ∈ m, c.1 ≠ a) :
    Memory.read m a = Memory.unlisted := by
  induction m with
  | nil => rfl
  | cons c rest ih =>
    have hc : c.1 ≠ a := h c (by simp)
    simp only [Memory.read, if_neg hc]
    exact ih fun d hd => h d (by simp [hd])

theorem Memory.read_put {a b : Nat} {v : Byte} {rest : List Host.Cell} (h : a = b → ∀ c ∈ rest, c.1 ≠ b) :
    Memory.read (Memory.put a v rest) b = if a = b then v else Memory.read rest b := by
  unfold Memory.put
  by_cases hv : v = Memory.unlisted
  · by_cases hab : a = b
    · simp [hv, hab, Memory.read_of_not_listed (h hab)]
    · simp [hv, hab]
  · simp [hv, Memory.read]

/-- A write leaves every other address as it was, in any memory. -/
theorem Memory.read_write_other {m : List Host.Cell} {a b : Nat} {v : Byte} (h : a ≠ b) :
    Memory.read (Memory.write m a v) b = Memory.read m b := by
  induction m with
  | nil => simp [Memory.write, Memory.read_put, h]
  | cons c rest ih =>
    obtain ⟨k, w⟩ := c
    unfold Memory.write
    split
    · simp [Memory.read_put, h]
    · split
      next hk => subst hk; simp [Memory.read_put, Memory.read, h]
      next => simp [Memory.read, ih]

/-- In a memory in canonical form, a read after a write to the same address gives the value written. -/
theorem Memory.read_write_same {m : List Host.Cell} {a : Nat} {v : Byte} (h : Memory.wf m) :
    Memory.read (Memory.write m a v) a = v := by
  induction m with
  | nil => simp [Memory.write, Memory.read_put]
  | cons c rest ih =>
    obtain ⟨k, w⟩ := c
    obtain ⟨hp, hv⟩ := h
    rw [List.pairwise_cons] at hp
    unfold Memory.write
    split
    next hlt =>
      rw [Memory.read_put] <;> simp
      refine ⟨by omega, fun x y hxy => ?_⟩
      have := hp.1 _ hxy
      simp at this; omega
    next hlt =>
      split
      next hk =>
        subst hk
        rw [Memory.read_put] <;> simp
        intro x y hxy
        have := hp.1 _ hxy
        simp at this; omega
      next hk =>
        simp only [Memory.read, if_neg hk]
        exact ih ⟨hp.2, fun d hd => hv d (by simp [hd])⟩

/-- The byte at any address after a write to a memory in canonical form. -/
theorem Memory.read_write {m : List Host.Cell} {a b : Nat} {v : Byte} (h : Memory.wf m) :
    Memory.read (Memory.write m a v) b = if a = b then v else Memory.read m b := by
  by_cases hab : a = b
  · subst hab; simp [Memory.read_write_same h]
  · simp [hab, Memory.read_write_other hab]

/-- What a write lists: the written cell, or a cell that was listed. -/
theorem Memory.mem_write {m : List Host.Cell} {a : Nat} {v : Byte} {c : Host.Cell}
    (h : c ∈ Memory.write m a v) : (c = (a, v) ∧ v ≠ Memory.unlisted) ∨ c ∈ m := by
  induction m with
  | nil =>
    simp only [Memory.write, Memory.put] at h
    split at h <;> simp_all
  | cons d rest ih =>
    obtain ⟨k, w⟩ := d
    unfold Memory.write at h
    split at h
    · simp only [Memory.put] at h; split at h <;> simp_all
    · split at h
      · simp only [Memory.put] at h; split at h <;> simp_all
        tauto
      · rw [List.mem_cons] at h ⊢
        rcases h with h | h
        · exact .inr (.inl h)
        · rcases ih h with h' | h'
          · exact .inl h'
          · exact .inr (.inr h')

/-- A write keeps the canonical form. -/
theorem Memory.wf_write {m : List Host.Cell} {a : Nat} {v : Byte} (h : Memory.wf m) :
    Memory.wf (Memory.write m a v) := by
  refine ⟨?_, fun c hc => ?_⟩
  · induction m with
    | nil => simp only [Memory.write, Memory.put]; split <;> simp
    | cons d rest ih =>
      obtain ⟨k, w⟩ := d
      obtain ⟨hp, hv⟩ := h
      have hrest : Memory.wf rest := ⟨(List.pairwise_cons.mp hp).2, fun d hd => hv d (by simp [hd])⟩
      have hk := (List.pairwise_cons.mp hp).1
      unfold Memory.write
      split
      next hlt =>
        unfold Memory.put
        split
        · exact hp
        · refine List.pairwise_cons.mpr ⟨fun c hc => ?_, hp⟩
          rcases List.mem_cons.mp hc with rfl | hc
          · exact hlt
          · have := hk c hc
            exact lt_trans hlt this
      next hlt =>
        split
        next heq =>
          subst heq
          unfold Memory.put
          split
          · exact hrest.1
          · exact List.pairwise_cons.mpr ⟨hk, hrest.1⟩
        next hne =>
          refine List.pairwise_cons.mpr ⟨fun c hc => ?_, ih hrest⟩
          rcases Memory.mem_write hc with ⟨rfl, -⟩ | hc
          · simp; omega
          · exact hk c hc
  · rcases Memory.mem_write hc with ⟨rfl, hv⟩ | hc
    · exact hv
    · exact h.2 c hc

/-- A write to an address below the capacity lists nothing at or above it. -/
theorem Memory.bound_write {m : List Host.Cell} {a n : Nat} {v : Byte} (ha : a < n) (h : ∀ c ∈ m, c.1 < n) :
    ∀ c ∈ Memory.write m a v, c.1 < n := by
  intro c hc
  rcases Memory.mem_write hc with ⟨rfl, -⟩ | hc
  · exact ha
  · exact h c hc

theorem Memory.wf_nil : Memory.wf [] := ⟨List.Pairwise.nil, by simp⟩

end Sys2Proof.Machine
end

