-- ==== Sys2Proof/Laws/Ops.lean ====
section
/-! SUPPORT. What each shared operation over memory can do, said once: when it answers, and with what. -/

namespace Sys2Proof.Machine

/-- A sequence of two operations answers when both do. -/
theorem bind_ok_iff {α β : Type} {x : Except Fault α} {k : α → Except Fault β} {b : β} :
    (x >>= k) = .ok b ↔ ∃ a, x = .ok a ∧ k a = .ok b := by
  cases x <;> simp [bind, Except.bind]

/-- A sequence of two operations fails at the first that does. -/
theorem bind_error_iff {α β : Type} {x : Except Fault α} {k : α → Except Fault β} {f : Fault} :
    (x >>= k) = .error f ↔ x = .error f ∨ ∃ a, x = .ok a ∧ k a = .error f := by
  cases x <;> simp [bind, Except.bind]

theorem pure_eq_ok {α : Type} (a : α) : (pure a : Except Fault α) = .ok a := rfl

theorem inRange_iff {s : State} {a : Address} : inRange s a = true ↔ a.toNat < s.cfg.memBytes := by
  simp [inRange]

theorem inRange_eq_false_iff {s : State} {a : Address} : inRange s a = false ↔ s.cfg.memBytes ≤ a.toNat := by
  simp [inRange]

theorem memRead1_ok_iff {a : Address} {s : State} {v : Byte} :
    memRead1 a s = .ok v ↔ inRange s a = true ∧ v = byteAt s a := by
  cases h : inRange s a <;> simp [memRead1, outOfRange, h, eq_comm]

theorem memRead1_error_iff {a : Address} {s : State} {f : Fault} :
    memRead1 a s = .error f ↔ inRange s a = false ∧ f = .memoryFault a s := by
  cases h : inRange s a <;> simp [memRead1, outOfRange, h, eq_comm]

theorem memRead2_ok_iff {a : Address} {s : State} {w : Word} :
    memRead2 a s = .ok w ↔
      inRange s a = true ∧ inRange s (nextAddr a) = true ∧ w = beWord (byteAt s a) (byteAt s (nextAddr a)) := by
  simp only [memRead2, bind_ok_iff, memRead1_ok_iff, pure_eq_ok, Except.ok.injEq]
  aesop

theorem memRead2_error_iff {a : Address} {s : State} {f : Fault} :
    memRead2 a s = .error f ↔
      (inRange s a = false ∧ f = .memoryFault a s) ∨
        (inRange s a = true ∧ inRange s (nextAddr a) = false ∧ f = .memoryFault (nextAddr a) s) := by
  simp [memRead2, bind_error_iff, memRead1_ok_iff, memRead1_error_iff, pure_eq_ok]

theorem memWrite1_ok_iff {a : Address} {v : Byte} {s t : State} :
    memWrite1 a v s = .ok t ↔ inRange s a = true ∧ t = s.setMem (Memory.write s.mem a.toNat v) := by
  cases h : inRange s a <;> simp [memWrite1, outOfRange, h, eq_comm]

theorem memWrite1_error_iff {a : Address} {v : Byte} {s : State} {f : Fault} :
    memWrite1 a v s = .error f ↔ inRange s a = false ∧ f = .memoryFault a s := by
  cases h : inRange s a <;> simp [memWrite1, outOfRange, h, eq_comm]

/-- The byte at any address after a byte write to a memory in canonical form. -/
theorem byteAt_setMem_write {s : State} (h : Memory.wf s.mem) (a b : Address) (v : Byte) :
    byteAt (s.setMem (Memory.write s.mem a.toNat v)) b = if a = b then v else byteAt s b := by
  simp only [byteAt, State.setMem_mem, Memory.read_write h, BitVec.toNat_inj]

/-- What `complete` can do when it answers a next state. -/
theorem complete_next_iff {n : Nat} {r : Except Fault Info} {x : Info → State → Except Fault State} {s t : State} :
    complete n r x s = .next t ↔ ∃ info u, r = .ok info ∧ x info s = .ok u ∧ t = advancePC n u := by
  unfold complete
  cases r with
  | error f => simp
  | ok info => cases h : x info s <;> simp [h, eq_comm]

/-- What `complete` can do when it answers a fault. -/
theorem complete_fault_iff {n : Nat} {r : Except Fault Info} {x : Info → State → Except Fault State} {s : State} {f : Fault} :
    complete n r x s = .fault f ↔ r = .error f ∨ ∃ info, r = .ok info ∧ x info s = .error f := by
  unfold complete
  cases r with
  | error g => simp
  | ok info => cases h : x info s <;> simp [h]

/-- `complete` never refuses. -/
theorem complete_ne_refused {n : Nat} {r : Except Fault Info} {x : Info → State → Except Fault State} {s : State} {q : Refusal} :
    complete n r x s ≠ .refused q := by
  unfold complete
  cases r with
  | error f => simp
  | ok info => cases h : x info s <;> simp [h]

end Sys2Proof.Machine
end

