-- ==== Sys2Proof/Laws/Operands.lean ====
section
/-! SUPPORT. What an operand form can do: the fetches, and the two resolvers that read memory beyond the operand. -/

namespace Sys2Proof.Machine

theorem absoluteIndirectXInfo_ok_iff {op16 : Word} {s : State} {info : Info} :
    absoluteIndirectXInfo op16 s = .ok info ↔
      ∃ w, memRead2 (bankAddr s.PBR (op16 + idx s.X s)) s = .ok w ∧
        info = { ea := w.setWidth 24, address := bankAddr s.PBR (op16 + idx s.X s) } := by
  simp [absoluteIndirectXInfo, bind_ok_iff, pure_eq_ok, @eq_comm _ info]

theorem absoluteIndirectXInfo_error_iff {op16 : Word} {s : State} {f : Fault} :
    absoluteIndirectXInfo op16 s = .error f ↔ memRead2 (bankAddr s.PBR (op16 + idx s.X s)) s = .error f := by
  simp [absoluteIndirectXInfo, bind_error_iff, pure_eq_ok]

theorem directPageIndirectXInfo_ok_iff {op8 : Byte} {s : State} {info : Info} :
    directPageIndirectXInfo op8 s = .ok info ↔
      ∃ w, memRead2 (bankAddr 0x00#8 (s.D + s.X + op8.setWidth 16)) s = .ok w ∧
        info = { ea := w.setWidth 24, address := 0#24 } := by
  simp [directPageIndirectXInfo, bind_ok_iff, pure_eq_ok, @eq_comm _ info]

theorem directPageIndirectXInfo_error_iff {op8 : Byte} {s : State} {f : Fault} :
    directPageIndirectXInfo op8 s = .error f ↔
      memRead2 (bankAddr 0x00#8 (s.D + s.X + op8.setWidth 16)) s = .error f := by
  simp [directPageIndirectXInfo, bind_error_iff, pure_eq_ok]

end Sys2Proof.Machine
end

