-- ==== Sys2Proof/Laws/Execute.lean ====
section
/-! SUPPORT. What each execute function and stack primitive can do, said once. -/

namespace Sys2Proof.Machine

/-- `loadA` answers in one of two widths. -/
theorem loadA_ok_iff {info : Info} {s t : State} :
    loadA info s = .ok t ↔
      (m8 s = true ∧ inRange s info.ea = true ∧
        t = setNZ8 (byteAt s info.ea) (s.setA (setLow s.A (byteAt s info.ea)))) ∨
      (m8 s = false ∧ ∃ w, memRead2 info.ea s = .ok w ∧ t = setNZ16 w (s.setA w)) := by
  cases hm : m8 s <;> simp [loadA, hm, bind_ok_iff, memRead1_ok_iff, pure_eq_ok, and_assoc, @eq_comm _ t]

/-- A fault of `loadA` is a fault of its data read. -/
theorem loadA_error_iff {info : Info} {s : State} {f : Fault} :
    loadA info s = .error f ↔
      (m8 s = true ∧ inRange s info.ea = false ∧ f = .memoryFault info.ea s) ∨
      (m8 s = false ∧ memRead2 info.ea s = .error f) := by
  cases hm : m8 s <;> simp [loadA, hm, bind_error_iff, memRead1_error_iff, pure_eq_ok]

theorem pushByte_ok_iff {v : Byte} {s t : State} :
    pushByte v s = .ok t ↔
      inRange s (stackAddr s) = true ∧ t = decS (s.setMem (Memory.write s.mem (stackAddr s).toNat v)) := by
  simp [pushByte, bind_ok_iff, memWrite1_ok_iff, pure_eq_ok, and_assoc, @eq_comm _ t]

theorem pushByte_error_iff {v : Byte} {s : State} {f : Fault} :
    pushByte v s = .error f ↔ inRange s (stackAddr s) = false ∧ f = .memoryFault (stackAddr s) s := by
  simp [pushByte, bind_error_iff, memWrite1_error_iff, pure_eq_ok]

theorem pullByte_ok_iff {s t : State} {v : Byte} :
    pullByte s = .ok (v, t) ↔
      inRange s (stackAddr (incS s)) = true ∧ v = byteAt s (stackAddr (incS s)) ∧ t = incS s := by
  have e1 : inRange (incS s) (stackAddr (incS s)) = inRange s (stackAddr (incS s)) := rfl
  have e2 : byteAt (incS s) (stackAddr (incS s)) = byteAt s (stackAddr (incS s)) := rfl
  simp [pullByte, bind_ok_iff, memRead1_ok_iff, pure_eq_ok, and_assoc, e1, e2, @eq_comm _ v, @eq_comm _ t]

theorem pullByte_error_iff {s : State} {f : Fault} :
    pullByte s = .error f ↔
      inRange s (stackAddr (incS s)) = false ∧ f = .memoryFault (stackAddr (incS s)) (incS s) := by
  have e1 : inRange (incS s) (stackAddr (incS s)) = inRange s (stackAddr (incS s)) := rfl
  simp [pullByte, bind_error_iff, memRead1_error_iff, pure_eq_ok, e1]

theorem pushWord_ok_iff {w : Word} {s t : State} :
    pushWord w s = .ok t ↔ ∃ u, pushByte (hiByte w) s = .ok u ∧ pushByte (loByte w) u = .ok t := by
  simp [pushWord, bind_ok_iff]

theorem pushWord_error_iff {w : Word} {s : State} {f : Fault} :
    pushWord w s = .error f ↔
      pushByte (hiByte w) s = .error f ∨ ∃ u, pushByte (hiByte w) s = .ok u ∧ pushByte (loByte w) u = .error f := by
  simp [pushWord, bind_error_iff]

theorem pullWord_ok_iff {s u : State} {w : Word} :
    pullWord s = .ok (w, u) ↔
      ∃ lo t hi, pullByte s = .ok (lo, t) ∧ pullByte t = .ok (hi, u) ∧ w = beWord hi lo := by
  simp [pullWord, bind_ok_iff, pure_eq_ok, @eq_comm _ w]

theorem pullWord_error_iff {s : State} {f : Fault} :
    pullWord s = .error f ↔
      pullByte s = .error f ∨ ∃ lo t, pullByte s = .ok (lo, t) ∧ pullByte t = .error f := by
  simp [pullWord, bind_error_iff, pure_eq_ok]

/-- `pushA` answers in one of two widths. -/
theorem pushA_ok_iff {info : Info} {s t : State} :
    pushA info s = .ok t ↔
      (m8 s = true ∧ pushByte (loByte s.A) s = .ok t) ∨ (m8 s = false ∧ pushWord s.A s = .ok t) := by
  cases hm : m8 s <;> simp [pushA, hm]

/-- A fault of `pushA` is a fault of its push. -/
theorem pushA_error_iff {info : Info} {s : State} {f : Fault} :
    pushA info s = .error f ↔
      (m8 s = true ∧ pushByte (loByte s.A) s = .error f) ∨ (m8 s = false ∧ pushWord s.A s = .error f) := by
  cases hm : m8 s <;> simp [pushA, hm]

/-- `pullA` answers in one of two widths. -/
theorem pullA_ok_iff {info : Info} {s t : State} :
    pullA info s = .ok t ↔
      (m8 s = true ∧ ∃ v u, pullByte s = .ok (v, u) ∧ t = setNZ8 v (u.setA (setLow u.A v))) ∨
      (m8 s = false ∧ ∃ w u, pullWord s = .ok (w, u) ∧ t = setNZ16 w (u.setA w)) := by
  cases hm : m8 s <;> simp [pullA, hm, bind_ok_iff, pure_eq_ok, @eq_comm _ t]

/-- A fault of `pullA` is a fault of the pull: A is not written. -/
theorem pullA_error_iff {info : Info} {s : State} {f : Fault} :
    pullA info s = .error f ↔
      (m8 s = true ∧ pullByte s = .error f) ∨ (m8 s = false ∧ pullWord s = .error f) := by
  cases hm : m8 s <;> simp [pullA, hm, bind_error_iff, pure_eq_ok]

theorem decS_eq_setS (s : State) : decS s = s.setS (decS s).S := rfl

theorem incS_eq_setS (s : State) : incS s = s.setS (incS s).S := rfl

end Sys2Proof.Machine
end

