-- ==== Sys2Proof/Laws/PerInstr.lean ====
section
/-! SUPPORT. Laws of the instructions as syntax, one lemma per constructor. -/

namespace Sys2Proof.Laws

/-- An instruction is well formed, and its encoding has its declared size and starts with its opcode (R60, R64, R73). -/
def Sized.Statement (i : Instr) : Prop :=
  i.wellFormed = true ∧ (encode i).length = i.size ∧ (encode i).head? = some i.opcode

theorem Sized.pha : Sized.Statement .pha := ⟨rfl, rfl, rfl⟩
theorem Sized.pla : Sized.Statement .pla := ⟨rfl, rfl, rfl⟩
theorem Sized.ldaDpIndX (dp : Byte) : Sized.Statement (.ldaDpIndX dp) := ⟨rfl, rfl, rfl⟩
theorem Sized.ldaDp (dp : Byte) : Sized.Statement (.ldaDp dp) := ⟨rfl, rfl, rfl⟩
theorem Sized.ldaAbs (addr : Word) : Sized.Statement (.ldaAbs addr) := ⟨rfl, rfl, rfl⟩
theorem Sized.ldaDpX (dp : Byte) : Sized.Statement (.ldaDpX dp) := ⟨rfl, rfl, rfl⟩
theorem Sized.ldaAbsY (addr : Word) : Sized.Statement (.ldaAbsY addr) := ⟨rfl, rfl, rfl⟩
theorem Sized.ldaAbsX (addr : Word) : Sized.Statement (.ldaAbsX addr) := ⟨rfl, rfl, rfl⟩
theorem Sized.rep (mask : Byte) : Sized.Statement (.rep mask) := ⟨rfl, rfl, rfl⟩
theorem Sized.sep (mask : Byte) : Sized.Statement (.sep mask) := ⟨rfl, rfl, rfl⟩
theorem Sized.nop : Sized.Statement .nop := ⟨rfl, rfl, rfl⟩

end Sys2Proof.Laws
end

