-- ==== Sys2Proof/Laws/Values.lean ====
section
/-! SUPPORT. The model's operations as the plain arithmetic of Safety.lean: widths, index values, addresses, S, flags, loaded
states. -/

namespace Sys2Proof.Machine

open Sys2Proof.Safety

theorem m8_eq_true_iff {s : State} : m8 s = true ↔ Accumulator8 s := by
  simp [m8, getFlag, flagBit, Accumulator8]

theorem m8_eq_false_iff {s : State} : m8 s = false ↔ ¬ Accumulator8 s := by
  rw [← m8_eq_true_iff]
  simp

/-- A 16-bit accumulator means native mode. -/
theorem native_of_not_accumulator8 {s : State} (h : ¬ Accumulator8 s) : s.E = false := by
  simp only [Accumulator8, not_or, Bool.not_eq_true] at h
  exact h.1

theorem toNat_idx {s : State} {r : Word} : (idx r s).toNat = indexValue s r := by
  have hx : x8 s = true ↔ Index8 s := by simp [x8, getFlag, flagBit, Index8]
  unfold idx indexValue
  by_cases h : Index8 s
  · simp only [hx.mpr h, if_pos h, if_true]
    simp [toNat_loByte]
    omega
  · have : x8 s = false := by
      rw [← Bool.not_eq_true, hx]
      exact h
    simp only [this, if_neg h]
    simp

/-- An address is known from its number. -/
theorem address_eq_ofNat {n : Nat} {a : Address} (h : a.toNat = n) : a = BitVec.ofNat 24 n := by
  apply BitVec.eq_of_toNat_eq
  rw [← h]
  simp

theorem toNat_nextAddr (a : Address) : (nextAddr a).toNat = (a.toNat + 1) % 2 ^ 24 := by simp [nextAddr]

theorem nextAddr_eq_ofNat (a : Address) : nextAddr a = BitVec.ofNat 24 (a.toNat + 1) := by
  apply BitVec.eq_of_toNat_eq
  rw [toNat_nextAddr]
  simp

theorem toNat_operandAddr (s : State) : (operandAddr s).toNat = s.PBR.toNat * 65536 + (s.PC.toNat + 1) % 65536 := by
  simp [operandAddr, toNat_bankAddr]

theorem toNat_stackAddr (s : State) : (stackAddr s).toNat = s.S.toNat := by simp [stackAddr, toNat_bankAddr]

theorem add_ofNat_eq (w : Word) (n : Nat) : w + BitVec.ofNat 16 n = BitVec.ofNat 16 (w.toNat + n) := by
  rw [BitVec.ofNat_add]
  simp

theorem loByte_eq_ofNat (w : Word) : loByte w = BitVec.ofNat 8 w.toNat := by
  apply BitVec.eq_of_toNat_eq
  rw [toNat_loByte]
  simp

theorem hiByte_eq_ofNat (w : Word) : hiByte w = BitVec.ofNat 8 (w.toNat / 256) := by
  apply BitVec.eq_of_toNat_eq
  have := w.isLt
  rw [toNat_hiByte]
  simp
  omega

theorem setLow_eq_ofNat (r : Word) (b : Byte) : setLow r b = BitVec.ofNat 16 (r.toNat / 256 * 256 + b.toNat) := by
  apply BitVec.eq_of_toNat_eq
  have := r.isLt
  have := b.isLt
  rw [toNat_setLow]
  simp
  omega

theorem beWord_eq_ofNat (hi lo : Byte) : beWord hi lo = BitVec.ofNat 16 (hi.toNat * 256 + lo.toNat) := by
  apply BitVec.eq_of_toNat_eq
  have := hi.isLt
  have := lo.isLt
  rw [toNat_beWord]
  simp
  omega

/-- Two states with equal fields are equal. -/
theorem State.eq_of_fields {s t : State} (hA : s.A = t.A) (hX : s.X = t.X) (hY : s.Y = t.Y) (hS : s.S = t.S) (hD : s.D = t.D)
    (hPC : s.PC = t.PC) (hDBR : s.DBR = t.DBR) (hPBR : s.PBR = t.PBR) (hP : s.P = t.P) (hE : s.E = t.E) (hB : s.B = t.B)
    (hm : s.mem = t.mem) (hc : s.cfg = t.cfg) : s = t := by
  cases s
  cases t
  simp_all

/-- SetNZ in the plain bits of Safety.lean. -/
theorem writeNZ_P_eq_statusAfterLoad (s : State) (n z : Bool) : (writeNZ n z s).P = statusAfterLoad s n z := by
  rw [writeNZ_P]
  unfold statusAfterLoad
  split
  · cases n <;> cases z <;> simp only [putFlag, flagMask, flagBit] <;> generalize s.P = p <;> revert p <;> decide
  · rfl

theorem topBit_byte (v : Byte) : v.getLsbD 7 = decide (128 ≤ v.toNat) := by revert v; decide

theorem zero_byte (v : Byte) : (v == 0#8) = decide (v.toNat = 0) := by revert v; decide

theorem topBit_beWord (hi lo : Byte) : (beWord hi lo).getLsbD 15 = decide (128 ≤ hi.toNat) := by
  have e : (beWord hi lo).getLsbD 15 = decide (2 ^ 15 ≤ (beWord hi lo).toNat) := by
    rw [BitVec.getLsbD, Nat.testBit_eq_decide_div_mod_eq]
    have := (beWord hi lo).isLt
    congr 1
    apply propext
    omega
  have := lo.isLt
  rw [e, toNat_beWord]
  congr 1
  apply propext
  omega

theorem zero_beWord (hi lo : Byte) : (beWord hi lo == 0#16) = decide (hi.toNat * 256 + lo.toNat = 0) := by
  rw [← toNat_beWord, Bool.eq_iff_iff]
  simp [← BitVec.toNat_inj]

/-- The end of an 8-bit load. -/
theorem advance_setNZ8 (s : State) (v : Byte) (n : Nat) :
    advancePC n (setNZ8 v (s.setA (setLow s.A v))) = afterLoad8 s v n := by
  apply State.eq_of_fields <;>
    simp only [advancePC, setNZ8, afterLoad8, writeNZ_P_eq_statusAfterLoad, setLow_eq_ofNat, add_ofNat_eq, topBit_byte, zero_byte,
      State.setPC_P, State.setPC_A, State.setPC_PC, writeNZ_A, writeNZ_PC, State.setA_A, State.setA_PC]
  all_goals first | rfl | simp

/-- The end of a 16-bit load. -/
theorem advance_setNZ16 (s : State) (hi lo : Byte) (n : Nat) :
    advancePC n (setNZ16 (beWord hi lo) (s.setA (beWord hi lo))) = afterLoad16 s hi lo n := by
  have e := beWord_eq_ofNat hi lo
  apply State.eq_of_fields <;>
    simp only [advancePC, setNZ16, afterLoad16, writeNZ_P_eq_statusAfterLoad, add_ofNat_eq, topBit_beWord, zero_beWord,
      State.setPC_P, State.setPC_A, State.setPC_PC, writeNZ_A, writeNZ_PC, State.setA_A, State.setA_PC]
  all_goals first | rfl | exact e | simp

theorem decS_S (s : State) : (decS s).S = pushedS s.E s.S := by
  have hs : s8 s = s.E := rfl
  rw [← hs]
  have := s.S.isLt
  by_cases hE : s8 s = true
  · simp only [decS, State.setS_S, pushedS, if_pos hE]
    apply BitVec.eq_of_toNat_eq
    simp [toNat_setLow, toNat_loByte, BitVec.toNat_sub]
    omega
  · simp only [decS, State.setS_S, pushedS, if_neg hE]
    apply BitVec.eq_of_toNat_eq
    simp [BitVec.toNat_sub]
    omega

theorem incS_S (s : State) : (incS s).S = pulledS s.E s.S := by
  have hs : s8 s = s.E := rfl
  rw [← hs]
  have := s.S.isLt
  by_cases hE : s8 s = true
  · simp only [incS, State.setS_S, pulledS, if_pos hE]
    apply BitVec.eq_of_toNat_eq
    simp [toNat_setLow, toNat_loByte]
    omega
  · simp only [incS, State.setS_S, pulledS, if_neg hE]
    apply BitVec.eq_of_toNat_eq
    simp

end Sys2Proof.Machine
end

