-- ==== Sys2Proof/Laws/Step.lean ====
section
/-! SUPPORT. What decoding an opcode, fetching, running an instruction and a step can do, said once. -/

namespace Sys2Proof.Machine

open Sys2Proof.Safety

/-- Every opcode byte selects one of the eleven shapes or is illegal. -/
theorem decodeOpcode_cases (op : Byte) :
    (op = 0x48#8 ∧ decodeOpcode op = some (.bare .pha)) ∨ (op = 0x68#8 ∧ decodeOpcode op = some (.bare .pla)) ∨
    (op = 0xA1#8 ∧ decodeOpcode op = some (.byteOperand .ldaDpIndX)) ∨
    (op = 0xA5#8 ∧ decodeOpcode op = some (.byteOperand .ldaDp)) ∨
    (op = 0xAD#8 ∧ decodeOpcode op = some (.wordOperand .ldaAbs)) ∨
    (op = 0xB5#8 ∧ decodeOpcode op = some (.byteOperand .ldaDpX)) ∨
    (op = 0xB9#8 ∧ decodeOpcode op = some (.wordOperand .ldaAbsY)) ∨
    (op = 0xBD#8 ∧ decodeOpcode op = some (.wordOperand .ldaAbsX)) ∨
    (op = 0xC2#8 ∧ decodeOpcode op = some (.byteOperand .rep)) ∨ (op = 0xE2#8 ∧ decodeOpcode op = some (.byteOperand .sep)) ∨
    (op = 0xEA#8 ∧ decodeOpcode op = some (.bare .nop)) ∨ (op ∉ legalOpcodes ∧ decodeOpcode op = none) := by
  by_cases h : op ∈ legalOpcodes
  · simp only [legalOpcodes, List.mem_cons, List.not_mem_nil, or_false] at h
    rcases h with rfl | rfl | rfl | rfl | rfl | rfl | rfl | rfl | rfl | rfl | rfl <;> simp [decodeOpcode]
  · have : decodeOpcode op = none := by
      simp only [legalOpcodes, List.mem_cons, List.not_mem_nil, or_false, not_or] at h
      unfold decodeOpcode
      split <;> simp_all
    simp [h, this]

/-- A word operand, encoded, is the two bytes it was read from (R61, R62). -/
@[simp] theorem encodeWord_beWord (hi lo : Byte) : encodeWord (beWord hi lo) = [hi, lo] := by simp [encodeWord]

/-- The table has no entry for an illegal opcode. -/
theorem baselineTable_eq_none {op : Byte} (h : op ∉ legalOpcodes) : baselineTable op = none := by
  simp only [legalOpcodes, List.mem_cons, List.not_mem_nil, or_false, not_or] at h
  unfold baselineTable
  split <;> simp_all

/-- What a fetch that answers has read. -/
theorem fetchInstr_ok_iff {s : State} {i : Instr} :
    fetchInstr s = .ok i ↔
      ∃ op, fetchOpcode s = .ok op ∧
        (decodeOpcode op = some (.bare i) ∨
          (∃ mk b, decodeOpcode op = some (.byteOperand mk) ∧ fetchOp8 s = .ok b ∧ i = mk b) ∨
          (∃ mk w, decodeOpcode op = some (.wordOperand mk) ∧ fetchOp16 s = .ok w ∧ i = mk w)) := by
  simp only [fetchInstr, bind_ok_iff]
  refine exists_congr fun op => and_congr_right fun _ => ?_
  cases h : decodeOpcode op with
  | none => simp
  | some shape => cases shape <;> simp [bind_ok_iff, pure_eq_ok, @eq_comm _ i]

/-- How a fetch fails. -/
theorem fetchInstr_error_iff {s : State} {f : Fault} :
    fetchInstr s = .error f ↔
      fetchOpcode s = .error f ∨
        ∃ op, fetchOpcode s = .ok op ∧
          ((decodeOpcode op = none ∧ f = .unknownOpcode op) ∨
            (∃ mk, decodeOpcode op = some (.byteOperand mk) ∧ fetchOp8 s = .error f) ∨
            (∃ mk, decodeOpcode op = some (.wordOperand mk) ∧ fetchOp16 s = .error f)) := by
  simp only [fetchInstr, bind_error_iff]
  refine or_congr_right (exists_congr fun op => and_congr_right fun _ => ?_)
  cases h : decodeOpcode op with
  | none => simp [@eq_comm _ f]
  | some shape => cases shape <;> simp [bind_error_iff, pure_eq_ok]

/-- A step that answers a next state ran one decoded instruction. -/
theorem step_next_iff {s t : State} : step s = .next t ↔ ∃ i, fetchInstr s = .ok i ∧ exec i s = .next t := by
  unfold step
  cases h : fetchInstr s <;> simp

/-- A step fails in its fetch or in the instruction it ran. -/
theorem step_fault_iff {s : State} {f : Fault} :
    step s = .fault f ↔ fetchInstr s = .error f ∨ ∃ i, fetchInstr s = .ok i ∧ exec i s = .fault f := by
  unfold step
  cases h : fetchInstr s <;> simp

/-- What an instruction that answers a next state has done: the halt nothing, every other its one effect and the PC advance. -/
theorem exec_next_cases {i : Instr} {s t : State} (h : exec i s = .next t) :
    (i = .nop ∧ t = s) ∨
      ∃ u, i ≠ .nop ∧ t = advancePC i.size u ∧
        ((isLoad i = true ∧ ∃ info, loadA info s = .ok u) ∨ (∃ mask, i = .rep mask ∧ u = clearFlags mask s) ∨
          (∃ mask, i = .sep mask ∧ u = setFlags mask s) ∨ (i = .pha ∧ pushA accumulatorInfo s = .ok u) ∨
          (i = .pla ∧ pullA accumulatorInfo s = .ok u)) := by
  cases i
  case nop =>
    simp only [exec, execNop, Host.Outcome.next.injEq] at h
    exact .inl ⟨rfl, h.symm⟩
  all_goals
    simp only [exec, execPha, execPla, execLdaDpIndX, execLdaDp, execLdaAbs, execLdaDpX, execLdaAbsY, execLdaAbsX, execRep, execSep,
      complete_next_iff] at h
    obtain ⟨info, u, hi, hu, rfl⟩ := h
    refine .inr ⟨u, by simp, rfl, ?_⟩
  case pha =>
    cases hi
    exact .inr (.inr (.inr (.inl ⟨rfl, hu⟩)))
  case pla =>
    cases hi
    exact .inr (.inr (.inr (.inr ⟨rfl, hu⟩)))
  case rep mask =>
    cases hu
    exact .inr (.inl ⟨mask, rfl, rfl⟩)
  case sep mask =>
    cases hu
    exact .inr (.inr (.inl ⟨mask, rfl, rfl⟩))
  all_goals exact .inl ⟨rfl, info, hu⟩

end Sys2Proof.Machine
end

