-- ==== Sys2Proof/Tests/Slice0.lean ====
section
/-! SUPPORT. Tests, each about one decoding or one step, with the expected result from the spec (95_test_vectors.md by its vector's
id, or a rule by its number), and for every obligation with hypotheses a witness that they can be met. -/

namespace Sys2Proof.Tests

open Sys2Proof
open Sys2Proof.Machine
open Sys2Proof.Safety

/-! ### Helpers -/

/-- The launch the vectors share: PC = 0x1100, S = 0x01FF, the spec's parameters, and the given status and memory. -/
def start (p : Byte) (mem : List Host.Cell) : State :=
  { State.resetWith Config.baseline 0x1100#16 0x01FF#16 mem with P := p }

/-- The same with a memory of `n` bytes. -/
def startIn (n : Nat) (p : Byte) (mem : List Host.Cell) : State := { start p mem with cfg := { Config.baseline with memBytes := n } }

/-- An outcome is a next state with a property. -/
def nextIs (o : Host.Outcome State Fault Refusal) (p : State → Bool) : Bool :=
  match o with
  | .next t => p t
  | .fault _ => false
  | .refused _ => false

/-- An outcome is the given fault. -/
def faultIs (o : Host.Outcome State Fault Refusal) (f : Fault) : Bool :=
  match o with
  | .next _ => false
  | .fault g => g == f
  | .refused _ => false

/-- A resolver's answer. -/
def infoIs (m : Mode) (s : State) (ea address : Address) : Bool :=
  match resolver m with
  | none => false
  | some resolve =>
    match resolve s with
    | .ok info => info == { ea := ea, address := address }
    | .error _ => false

/-- A word read's answer. -/
def wordIs (r : Except Fault Word) (w : Word) : Bool :=
  match r with
  | .ok v => v == w
  | .error _ => false

/-! ### Well-formedness: each check refuses an ill-formed term -/

theorem test_wellFormed_no_memory : ({ memBytes := 0, loadSetsNZ := true } : Config).wellFormed = false := by decide

theorem test_wellFormed_too_much_memory : ({ memBytes := 2 ^ 24 + 1, loadSetsNZ := true } : Config).wellFormed = false := by decide

theorem test_wellFormed_bounds :
    ({ memBytes := 1, loadSetsNZ := false } : Config).wellFormed = true ∧ Config.baseline.wellFormed = true := by decide

theorem test_sizeFits_wrong_size : sizeFits .directPage 3 = false ∧ sizeFits .absolute 2 = false ∧ sizeFits .accumulator 2 = false := by
  decide

theorem test_sizeFits_unresolved : sizeFits (.unresolved "StackRelative") 2 = false := by decide

theorem test_wellFormed_instructions : (Instr.ldaAbsX 0xFFFF#16).wellFormed = true ∧ Instr.nop.wellFormed = true := by decide

theorem test_memory_wf_refuses : ¬ Memory.wf [(2, 1#8), (1, 1#8)] ∧ ¬ Memory.wf [(1, 1#8), (1, 1#8)] ∧ ¬ Memory.wf [(1, 0#8)] := by
  decide

/-! ### Decoding: every constructor's word, written from 30_encoding.md R61, R62, R64, R65 (first byte lowest) -/

theorem test_decode_pha : decodeTableWord 8 0b01001000 = some .pha := by decide

theorem test_decode_pla : decodeTableWord 8 0b01101000 = some .pla := by decide

theorem test_decode_ldaDpIndX : decodeTableWord 16 0b1001000010100001 = some (.ldaDpIndX 0x90#8) := by decide

theorem test_decode_ldaDp : decodeTableWord 16 0b0001000010100101 = some (.ldaDp 0x10#8) := by decide

theorem test_decode_ldaAbs : decodeTableWord 24 0b001101000001001010101101 = some (.ldaAbs 0x1234#16) := by decide

theorem test_decode_ldaDpX : decodeTableWord 16 0b0000000110110101 = some (.ldaDpX 0x01#8) := by decide

theorem test_decode_ldaAbsY : decodeTableWord 24 0b000000000110000010111001 = some (.ldaAbsY 0x6000#16) := by decide

theorem test_decode_ldaAbsX : decodeTableWord 24 0b111100001111111110111101 = some (.ldaAbsX 0xFFF0#16) := by decide

theorem test_decode_rep : decodeTableWord 16 0b0011000011000010 = some (.rep 0x30#8) := by decide

theorem test_decode_sep : decodeTableWord 16 0b0000010011100010 = some (.sep 0x04#8) := by decide

theorem test_decode_nop : decodeTableWord 8 0b11101010 = some .nop := by decide

/-- L13, T3, T4: illegal opcodes. -/
theorem test_decode_illegal :
    decodeTableWord 16 0x12A9 = none ∧ decodeTableWord 8 0x00 = none ∧ decodeTableWord 8 0x42 = none := by decide

/-- R48: the operand of `LDA $1234` is the bytes 12 34. -/
theorem test_encode_ldaAbs : encode (.ldaAbs 0x1234#16) = [0xAD#8, 0x12#8, 0x34#8] := by decide

/-! ### Memory and addressing modes -/

/-- M2, M3: a word read carries into the next bank and wraps at 2^24. -/
theorem test_word_read_edges :
    wordIs (memRead2 0x00FFFF#24 (start 0x00#8 [(0xFFFF, 0xAA#8), (0x10000, 0xBB#8)])) 0xAABB#16 = true ∧
    wordIs (memRead2 0xFFFFFF#24 (start 0x00#8 [(0, 0x02#8), (0xFFFFFF, 0x01#8)])) 0x0102#16 = true := by decide

/-- A2: the Immediate offset wraps in its bank. -/
theorem test_immediate_wraps : infoIs .immediate { start 0x00#8 [] with PC := 0xFFFF#16 } 0x000000#24 0x000000#24 = true := by decide

/-- A11: AbsoluteIndirect gives the raw operand and no bank. -/
theorem test_absoluteIndirect :
    infoIs .absoluteIndirect { start 0x00#8 [(0x1101, 0x80#8)] with DBR := 0x55#8 } 0x008000#24 0x000000#24 = true := by decide

/-- A13: the pointer wraps in the program bank, and is the auxiliary address. -/
theorem test_absoluteIndirectX :
    infoIs .absoluteIndirectX
      { start 0x00#8 [(0x20001, 0x12#8), (0x20002, 0x34#8), (0x21101, 0xFF#8), (0x21102, 0xFE#8)] with
        PBR := 0x02#8, X := 0x0003#16 } 0x001234#24 0x020001#24 = true := by decide

/-- A22: DirectPageY wraps modulo 2^16. -/
theorem test_directPageY :
    infoIs .directPageY { start 0x00#8 [(0x1101, 0xF0#8)] with D := 0xFF00#16, Y := 0x0020#16 } 0x000010#24 0x000000#24 = true := by
  decide

/-! ### The LDA instructions -/

/-- L3: an 8-bit load keeps the high byte, and Z looks at the byte alone. -/
theorem test_ldaDp_zero :
    nextIs (step { start 0x04#8 [(0x1100, 0xA5#8), (0x1101, 0x10#8)] with A := 0xFFFF#16 })
      (fun t => t.A == 0xFF00#16 && t.P == 0x44#8 && t.PC == 0x1102#16) = true := by decide

/-- L5: the low byte of a 16-bit load comes from the next bank. -/
theorem test_ldaDp_carry :
    nextIs (step { start 0x00#8 [(0x1100, 0xA5#8), (0x1101, 0xFF#8), (0xFFFF, 0x9A#8), (0x10000, 0xBC#8)] with D := 0xFF00#16 })
      (fun t => t.A == 0x9ABC#16 && t.P == 0x01#8) = true := by decide

/-- L6: an absolute load is big-endian. -/
theorem test_ldaAbs_word :
    nextIs (step (start 0x00#8 [(0x1100, 0xAD#8), (0x1101, 0x20#8), (0x2000, 0xBE#8), (0x2001, 0xEF#8)]))
      (fun t => t.A == 0xBEEF#16 && t.P == 0x01#8 && t.PC == 0x1103#16) = true := by decide

/-- L12: a data byte beyond the capacity faults and changes nothing. -/
theorem test_ldaAbs_fault :
    let s := { startIn 0x10000 0x00#8 [(0x1100, 0xAD#8), (0x1101, 0x12#8), (0x1102, 0x34#8)] with DBR := 0x01#8 }
    faultIs (step s) (.memoryFault 0x011234#24 s) = true := by decide

/-- L8: P.X selects the low byte of X; M is clear, so a word is loaded. -/
theorem test_ldaAbsX_width :
    nextIs (step { start 0x08#8 [(0x1100, 0xBD#8), (0x1101, 0x20#8), (0x2001, 0x55#8), (0x2002, 0x66#8)] with X := 0x0301#16 })
      (fun t => t.A == 0x5566#16 && t.PC == 0x1103#16) = true := by decide

/-- A8: the indexed sum wraps at 2^24. -/
theorem test_ldaAbsX_wraps :
    nextIs (step { start 0x04#8 [(0, 0x7E#8), (0x1100, 0xBD#8), (0x1101, 0xFF#8), (0x1102, 0xFF#8)] with
      DBR := 0xFF#8, X := 0x0001#16 }) (fun t => t.A == 0x007E#16) = true := by decide

/-- L9: a 16-bit Y. -/
theorem test_ldaAbsY_word_index :
    nextIs (step { start 0x04#8 [(0x1100, 0xB9#8), (0x1101, 0x20#8), (0x2100, 0x7F#8)] with Y := 0x0100#16 })
      (fun t => t.A == 0x007F#16 && t.P == 0x04#8) = true := by decide

/-- A9: an 8-bit Y, in the data bank. -/
theorem test_ldaAbsY_byte_index :
    nextIs (step { start 0x0C#8 [(0x1100, 0xB9#8), (0x1101, 0x01#8), (0x10105, 0x33#8)] with Y := 0xFF05#16, DBR := 0x01#8 })
      (fun t => t.A == 0x0033#16) = true := by decide

/-- L10. -/
theorem test_ldaDpX :
    nextIs (step { start 0x04#8 [(0x15, 0x01#8), (0x1100, 0xB5#8), (0x1101, 0x10#8)] with X := 0x0005#16 })
      (fun t => t.A == 0x0001#16 && t.PC == 0x1102#16) = true := by decide

/-- A21: the index width is selected before the addition, so the direct page counts. -/
theorem test_ldaDpX_page :
    nextIs (step { start 0x0C#8 [(0x5, 0x11#8), (0x115, 0x22#8), (0x1100, 0xB5#8), (0x1101, 0x10#8)] with
      D := 0x0100#16, X := 0x0005#16 }) (fun t => t.A == 0x0022#16) = true := by decide

/-- L11: the data is in bank 0, not in the data bank. -/
theorem test_ldaDpIndX_bank :
    nextIs (step { start 0x04#8 [(0x12, 0x30#8), (0x1100, 0xA1#8), (0x1101, 0x10#8), (0x3000, 0x7F#8)] with
      X := 0x0002#16, DBR := 0x7E#8 }) (fun t => t.A == 0x007F#16 && t.PC == 0x1102#16) = true := by decide

/-- A23: all 16 bits of X count though P.X is set. -/
theorem test_ldaDpIndX_wide :
    nextIs (step { start 0x0C#8 [(0x112, 0x20#8), (0x1100, 0xA1#8), (0x1101, 0x10#8), (0x2000, 0x80#8)] with X := 0x0102#16 })
      (fun t => t.A == 0x0080#16 && t.P == 0x0D#8) = true := by decide

/-! ### The stack -/

/-- K3: the high byte goes first, and S wraps modulo 2^16. -/
theorem test_pha_word :
    nextIs (step { start 0x00#8 [(0x1100, 0x48#8)] with A := 0xABCD#16, S := 0x0000#16 })
      (fun t => t.mem == [(0, 0xAB#8), (0x1100, 0x48#8), (0xFFFF, 0xCD#8)] && t.S == 0xFFFE#16 && t.PC == 0x1101#16) = true := by
  decide

/-- K9: the fault on the second byte leaves the first written and S counted down once. -/
theorem test_pha_fault :
    let s := { startIn 0x100 0x00#8 [(0x80, 0x48#8)] with A := 0xABCD#16, S := 0x0000#16, PC := 0x0080#16 }
    faultIs (step s) (.memoryFault 0x00FFFF#24 { s with S := 0xFFFF#16, mem := [(0, 0xAB#8), (0x80, 0x48#8)] }) = true := by decide

/-- K5: in emulation mode the low byte of S wraps and the high byte is kept. -/
theorem test_pla_emulation :
    nextIs (step { start 0x00#8 [(0x100, 0x34#8), (0x1100, 0x68#8)] with E := true, S := 0x01FF#16 })
      (fun t => t.S == 0x0100#16 && t.A == 0x0034#16 && t.P == 0x00#8) = true := by decide

/-- K7: Z ignores the high byte of A. -/
theorem test_pla_zero :
    nextIs (step { start 0x04#8 [(0x1100, 0x68#8)] with A := 0x12FF#16, S := 0x01FE#16 })
      (fun t => t.A == 0x1200#16 && t.S == 0x01FF#16 && t.P == 0x44#8) = true := by decide

/-! ### REP, SEP, the halt and the step -/

/-- F7: the CORE's bit order: mask 0x30 is D and I, not M and X. -/
theorem test_rep :
    nextIs (step (start 0x3C#8 [(0x1100, 0xC2#8), (0x1101, 0x30#8)])) (fun t => t.P == 0x0C#8 && t.PC == 0x1102#16) = true := by decide

/-- F3. -/
theorem test_rep_mixed : nextIs (step (start 0xA5#8 [(0x1100, 0xC2#8), (0x1101, 0x0F#8)])) (fun t => t.P == 0xA0#8) = true := by decide

/-- F10: the mask is read in the program bank. -/
theorem test_sep_bank :
    nextIs (step { start 0x00#8 [(1, 0xFF#8), (0x10000, 0xE2#8), (0x10001, 0x04#8)] with PBR := 0x01#8, PC := 0x0000#16 })
      (fun t => t.P == 0x04#8 && t.PC == 0x0002#16) = true := by decide

/-- F8: narrowing changes no register. -/
theorem test_sep_keeps_registers :
    nextIs (step { start 0x00#8 [(0x1100, 0xE2#8), (0x1101, 0x0C#8)] with A := 0xBEEF#16, X := 0x1234#16 })
      (fun t => t.P == 0x0C#8 && t.A == 0xBEEF#16 && t.X == 0x1234#16) = true := by decide

/-- T1: the halt changes nothing. -/
theorem test_nop :
    let s := start 0x04#8 [(0x1100, 0xEA#8)]
    nextIs (step s) (fun t => t == s) = true ∧ stepStatus s = some .halted := by decide

/-- L13: `A9 12` is an unknown opcode, status 2. -/
theorem test_unknown_opcode :
    let s := start 0x00#8 [(0x1100, 0xA9#8), (0x1101, 0x12#8)]
    faultIs (step s) (.unknownOpcode 0xA9#8) = true ∧ (stepStatus s).map statusCode = some 2 := by decide

/-- T8: at the end of memory an illegal opcode is reported, since its operands are never read. -/
theorem test_unknown_opcode_first :
    faultIs (step { startIn 0x10000 0x00#8 [] with PC := 0xFFFF#16 }) (.unknownOpcode 0x00#8) = true := by decide

/-- The exceptions of R110 and R117: an operand byte out of range, right after the last byte of memory. -/
theorem test_operand_fault :
    let s := startIn 0x1101 0xFF#8 [(0x1100, 0xC2#8)]
    let u := startIn 0x1101 0x04#8 [(0x1100, 0xA5#8)]
    faultIs (step s) (.memoryFault 0x001101#24 s) = true ∧ faultIs (step u) (.memoryFault 0x001101#24 u) = true := by decide

/-- T6: the opcode and the first operand byte are in the program bank, the second operand byte one further in the flat space. -/
theorem test_operand_edges :
    nextIs (step { start 0x04#8 [(0x1234, 0x5A#8), (0xFFFE, 0xAD#8), (0xFFFF, 0x12#8), (0x10000, 0x34#8)] with PC := 0xFFFE#16 })
      (fun t => t.A == 0x005A#16 && t.PC == 0x0001#16 && t.PBR == 0x00#8) = true := by decide

/-! ### Witnesses: the hypotheses of each obligation can be met, each clause at a boundary value -/

/-- `A5 10` at 0x1100 with M set. -/
def loading : State := start 0x04#8 [(0x10, 0x12#8), (0x1100, 0xA5#8), (0x1101, 0x10#8)]

/-- `48` at 0x1100 with M set, S = 0x01FF, A = 0x1234. -/
def pushing8 : State := { start 0x04#8 [(0x1100, 0x48#8)] with A := 0x1234#16 }

/-- `48` at 0x1100 with M clear, S = 0x01FF, A = 0x1234. -/
def pushing16 : State := { start 0x00#8 [(0x1100, 0x48#8)] with A := 0x1234#16 }

/-- A table with one entry, at 0x42, whose mode has no resolver. -/
def strangeTable : OpcodeTable := fun op =>
  if op = 0x42#8 then some ⟨"WDM", .unresolved "Implied", 2, 0, fun _ s => .ok s⟩ else none

theorem witness_DecodeOfEncode : (Instr.ldaAbs 0xFFFF#16).wellFormed = true := by decide

theorem witness_EncodeOfDecode : decode [0xAD#8, 0xFF#8, 0x00#8, 0xEA#8] = .ok (.ldaAbs 0xFF00#16, [0xEA#8]) := by rfl

theorem witness_DecoderRejections :
    decode [0xA9#8, 0x12#8] = .error (.unknownOpcode 0xA9#8) ∧ decode [0xA5#8] = .error (.truncated 0xA5#8) ∧
    decode [0xAD#8, 0x12#8] = .error (.truncated 0xAD#8) ∧ decode [] = .error .noBytes := ⟨rfl, rfl, rfl, rfl⟩

theorem witness_ModeFlagsDoNotChangeDecoding : fetchInstr loading = .ok (.ldaDp 0x10#8) := by rfl

theorem witness_StepRunsDecodedInstruction :
    ∀ (k : Nat) (b : Byte), (encode (.ldaDp 0x10#8))[k]? = some b → memRead1 (instrByteAddr loading k) loading = .ok b := by
  intro k b h
  match k with
  | 0 => cases h; rfl
  | 1 => cases h; rfl
  | n + 2 => simp [encode, Instr.operandBytes] at h

theorem witness_PlacedInstructionRuns :
    Memory.wf State.reset.mem ∧ (∀ k < 3, inRange State.reset (instrByteAddr State.reset k) = true) ∧
    decodeTableWord 24 0xFFFFBD = some (.ldaAbsX 0xFFFF#16) := by decide

/-- The halt, at the last byte in range, and a fetch at the first byte that is not. -/
theorem witness_HaltOpcodeHalts :
    (let s := { startIn 0x1101 0x00#8 [(0x1100, 0xEA#8)] with PC := 0x1100#16 }
     inRange s (bankAddr s.PBR s.PC) = true ∧ byteAt s (bankAddr s.PBR s.PC) = 0xEA#8) ∧
    (let s := startIn 0x1100 0x00#8 []
     inRange s (bankAddr s.PBR s.PC) = false) := by decide

theorem witness_UnknownOpcodeStopsStep :
    inRange (start 0x00#8 []) (bankAddr 0x00#8 0x1100#16) = true ∧ byteAt (start 0x00#8 []) (bankAddr 0x00#8 0x1100#16) = 0x00#8 ∧
    0x00#8 ∉ legalOpcodes ∧ 0xA9#8 ∉ legalOpcodes := by decide

theorem witness_UnknownModeOnlyBeyondBaseline :
    fetchOpcode (start 0x00#8 [(0x1100, 0x42#8)]) = .ok 0x42#8 ∧ 0x42#8 ≠ 0xEA#8 ∧
    ∃ d, strangeTable 0x42#8 = some d ∧ d.mode = .unresolved "Implied" := ⟨rfl, by decide, _, rfl, rfl⟩

theorem witness_SequencerInversion : ∃ t, sequencer baselineTable loading = .continued t := ⟨_, rfl⟩

/-- A step that advances PC over 0xFFFF (T5), and the halt. -/
theorem witness_StepAdvancesPcBySize :
    (∃ t, step { start 0x04#8 [(0xFFFF, 0x48#8)] with PC := 0xFFFF#16 } = .next t ∧ t.PC = 0x0000#16) ∧
    (∃ t, step (start 0x00#8 [(0x1100, 0xEA#8)]) = .next t ∧ t.PC = 0x1100#16) := ⟨⟨_, rfl, rfl⟩, ⟨_, rfl, rfl⟩⟩

/-- Each status is reported somewhere. -/
theorem witness_StepStatusNumbers :
    (stepStatus (start 0x00#8 [(0x1100, 0xEA#8)])).map statusCode = some 0 ∧ (stepStatus loading).map statusCode = some 1 ∧
    (stepStatus (start 0x00#8 [])).map statusCode = some 2 ∧ stepStatus (startIn 0x1100 0x00#8 []) = none := by decide

theorem witness_FullMemoryNeverFaults : State.reset.cfg.memBytes = 2 ^ 24 := by decide

/-- A fault that is not a push or a pull's, and one that is. -/
theorem witness_MemoryFaultEffects :
    (let s := startIn 0x1102 0x00#8 [(0x1100, 0xA5#8), (0x1101, 0xFF#8)]
     ∃ a left, step { s with D := 0x1003#16 } = .fault (.memoryFault a left)) ∧
    (let s := startIn 0x1101 0x00#8 [(0x1100, 0xA5#8)]
     (∃ a left, step s = .fault (.memoryFault a left)) ∧ fetchInstr s ≠ .ok .pha ∧ fetchInstr s ≠ .ok .pla) ∧
    (let s := { startIn 0x1101 0x00#8 [(0x1100, 0x68#8)] with S := 0x1100#16 }
     ∃ a left, step s = .fault (.memoryFault a left)) := by
  refine ⟨⟨_, _, rfl⟩, ⟨⟨_, _, rfl⟩, ?_, ?_⟩, ⟨_, _, rfl⟩⟩
  · intro h
    cases h
  · intro h
    cases h

theorem witness_StepKeepsStateInv : StateInv loading ∧ ∃ t, step loading = .next t := ⟨⟨by decide, by decide, by decide⟩, _, rfl⟩

/-- The image may fill the last byte of the smallest memory. -/
theorem witness_ResetMeetsStateInv :
    let c : Config := { memBytes := 1, loadSetsNZ := false }
    c.wellFormed = true ∧ Memory.wf [(0, 0xEA#8)] ∧ ∀ x ∈ ([(0, 0xEA#8)] : List Host.Cell), x.1 < c.memBytes := by decide

theorem witness_StepKeepsFixedFields : ∃ t, step { pushing16 with X := 0xFFFF#16, E := true, B := true } = .next t := ⟨_, rfl⟩

/-- Both bytes of a 16-bit push, with S at 0, are changed by a step. -/
theorem witness_OnlyPushChangesMemory :
    ∃ t, step { pushing16 with S := 0x0000#16 } = .next t ∧ memAt t 0 ≠ memAt pushing16 0 ∧ memAt t 0xFFFF ≠ memAt pushing16 0xFFFF :=
  ⟨_, rfl, by decide, by decide⟩

theorem witness_EmulationKeepsHighBytes :
    let s := { pushing16 with E := true, S := 0x0100#16 }
    s.E = true ∧ ∃ t, step s = .next t ∧ t.S = 0x01FF#16 := ⟨rfl, _, rfl, rfl⟩

/-- The last address in range and the first that is not. -/
theorem witness_BytePortReadsAndWrites :
    let s := startIn 0x1100 0x00#8 [(0x10FF, 0x01#8)]
    (0x0010FF#24).toNat < s.cfg.memBytes ∧ s.cfg.memBytes ≤ (0x001100#24).toNat ∧ Memory.wf s.mem := by decide

/-- A word at the end of the space, one whose first byte is out of range, one whose second byte is (M3, M5, M4). -/
theorem witness_WordReadComposition :
    ((0xFFFFFF#24).toNat < (start 0x00#8 []).cfg.memBytes ∧ ((0xFFFFFF#24).toNat + 1) % 2 ^ 24 < (start 0x00#8 []).cfg.memBytes) ∧
    (startIn 0x10000 0x00#8 []).cfg.memBytes ≤ (0x010000#24).toNat ∧
    ((0x00FFFF#24).toNat < (startIn 0x10000 0x00#8 []).cfg.memBytes ∧
      (startIn 0x10000 0x00#8 []).cfg.memBytes ≤ ((0x00FFFF#24).toNat + 1) % 2 ^ 24) := by decide

theorem witness_BigEndianByteOrder :
    (0xFFFFFE#24).toNat + 1 < 2 ^ 24 ∧ (∃ w, memRead2 0xFFFFFE#24 loading = .ok w) ∧
    Instr.ldaAbs 0x1234#16 = .ldaAbs 0x1234#16 := ⟨by decide, ⟨_, rfl⟩, rfl⟩

theorem witness_ImmediateAndAccumulatorResolve : resolver (.unresolved "Implied") = none := rfl

/-- A word operand that carries with the index into the next bank, and past the space. -/
theorem witness_AbsoluteModesResolve :
    fetchOp16 { start 0x00#8 [(0x1101, 0xFF#8), (0x1102, 0xFF#8)] with DBR := 0xFF#8, X := 0xFFFF#16 } = .ok 0xFFFF#16 := by rfl

theorem witness_DirectPageModesResolve :
    fetchOp8 { start 0x08#8 [(0x1101, 0xFF#8)] with D := 0xFFFF#16, X := 0xFFFF#16 } = .ok 0xFF#8 := by rfl

/-- The pointer of AbsoluteIndirectX at the end of its bank, and that of DirectPageIndirectX at 0xFFFF (A25). -/
theorem witness_IndirectModesResolve :
    (let s := { start 0x00#8 [(0x21101, 0xFF#8), (0x21102, 0xFE#8)] with PBR := 0x02#8, X := 0x0001#16 }
     fetchOp16 s = .ok 0xFFFE#16 ∧ s.PBR.toNat * 65536 + ((0xFFFE#16).toNat + indexValue s s.X) % 65536 = 0x2FFFF ∧
       0x2FFFF < s.cfg.memBytes ∧ (0x2FFFF + 1) % 2 ^ 24 < s.cfg.memBytes) ∧
    (let s := { start 0x00#8 [] with D := 0xFFFF#16 }
     fetchOp8 s = .ok 0x00#8 ∧ (s.D.toNat + s.X.toNat + (0x00#8).toNat) % 65536 = 0xFFFF ∧ 0xFFFF < s.cfg.memBytes ∧
       0xFFFF + 1 < s.cfg.memBytes) := ⟨⟨rfl, by decide, by decide, by decide⟩, ⟨rfl, by decide, by decide, by decide⟩⟩

theorem witness_ResolverFailsOnlyByMemory :
    ∃ resolve f, resolver .directPage = some resolve ∧ resolve (startIn 0x1101 0x00#8 []) = .error f := ⟨_, _, rfl, rfl⟩

theorem witness_WidthChangeIsImmediate :
    (∃ t, exec (.sep 0xFF#8) loading = .next t) ∧ (∃ t, exec (.rep 0xFF#8) { loading with E := true } = .next t) ∧
    getFlag .M 0x04#8 = true ∧ getFlag .X 0x08#8 = true := ⟨⟨_, rfl⟩, ⟨_, rfl⟩, by decide, by decide⟩

/-- The four clauses of a load at an address, in a memory that ends after it: an 8-bit load of the last byte, a 16-bit load of the
last two, a load beyond the end, and a 16-bit load whose second byte is beyond it. -/
abbrev LoadClauses (ea : Nat) : Prop :=
  (Accumulator8 (startIn (ea + 1) 0x04#8 []) ∧ ea < (startIn (ea + 1) 0x04#8 []).cfg.memBytes) ∧
  (¬ Accumulator8 (startIn (ea + 2) 0x00#8 []) ∧ ea < (startIn (ea + 2) 0x00#8 []).cfg.memBytes ∧
    (ea + 1) % 2 ^ 24 < (startIn (ea + 2) 0x00#8 []).cfg.memBytes) ∧
  (startIn ea 0x00#8 []).cfg.memBytes ≤ ea ∧
  (¬ Accumulator8 (startIn (ea + 1) 0x00#8 []) ∧ ea < (startIn (ea + 1) 0x00#8 []).cfg.memBytes ∧
    (startIn (ea + 1) 0x00#8 []).cfg.memBytes ≤ (ea + 1) % 2 ^ 24)

/-- `LDA $dp` at the wrap of the direct-page sum: in the states of LoadClauses, D = 0, the address is the operand. -/
theorem witness_LdaDirectPageLoads :
    LoadClauses 0x00FF ∧ ((startIn 1 0x00#8 []).D.toNat + (0xFF#8).toNat) % 65536 = 0x00FF := by decide

theorem witness_LdaAbsoluteLoads :
    LoadClauses 0xFFFF ∧ (startIn 1 0x00#8 []).DBR.toNat * 65536 + (0xFFFF#16).toNat = 0xFFFF := by decide

theorem witness_LdaAbsoluteXLoads :
    LoadClauses 0xFFFF ∧ ∀ p ∈ [0x00#8, 0x04#8], ((startIn 1 p []).DBR.toNat * 65536 + (0xFFFF#16).toNat +
      indexValue (startIn 1 p []) (startIn 1 p []).X) % 2 ^ 24 = 0xFFFF := by decide

theorem witness_LdaAbsoluteYLoads :
    LoadClauses 0x0000 ∧ ∀ p ∈ [0x00#8, 0x04#8], ((startIn 1 p []).DBR.toNat * 65536 + (0x0000#16).toNat +
      indexValue (startIn 1 p []) (startIn 1 p []).Y) % 2 ^ 24 = 0x0000 := by decide

theorem witness_LdaDirectPageXLoads :
    LoadClauses 0x00FF ∧ ∀ p ∈ [0x00#8, 0x04#8], ((startIn 1 p []).D.toNat + (0xFF#8).toNat +
      indexValue (startIn 1 p []) (startIn 1 p []).X) % 65536 = 0x00FF := by decide

/-- A pointer that ends the memory, one beyond it, one whose second byte is beyond it; and with the pointer 0 in range, the load's
own clauses at the address it holds, 0x0000. -/
theorem witness_LdaIndexedIndirectLoads :
    (let p := ((startIn 2 0x04#8 []).D.toNat + (startIn 2 0x04#8 []).X.toNat + (0x00#8).toNat) % 65536
     p < (startIn 2 0x04#8 []).cfg.memBytes ∧ p + 1 < (startIn 2 0x04#8 []).cfg.memBytes) ∧
    (let p := ((startIn 0x10 0x04#8 []).D.toNat + (startIn 0x10 0x04#8 []).X.toNat + (0x10#8).toNat) % 65536
     (startIn 0x10 0x04#8 []).cfg.memBytes ≤ p) ∧
    (let p := ((startIn 0x11 0x04#8 []).D.toNat + (startIn 0x11 0x04#8 []).X.toNat + (0x10#8).toNat) % 65536
     p < (startIn 0x11 0x04#8 []).cfg.memBytes ∧ (startIn 0x11 0x04#8 []).cfg.memBytes ≤ p + 1) ∧
    (let s := startIn 2 0x00#8 [(0, 0x00#8), (1, 0x01#8)]
     (memAt s 0).toNat * 256 + (memAt s 1).toNat = 1 ∧ ¬ Accumulator8 s ∧ 1 < s.cfg.memBytes ∧ s.cfg.memBytes ≤ (1 + 1) % 2 ^ 24) ∧
    (let s := startIn 2 0x00#8 []
     (memAt s 0).toNat * 256 + (memAt s 1).toNat = 0 ∧ ¬ Accumulator8 s ∧ 0 < s.cfg.memBytes ∧ (0 + 1) % 2 ^ 24 < s.cfg.memBytes) ∧
    (let s := startIn 2 0x04#8 [(1, 0x02#8)]
     (memAt s 0).toNat * 256 + (memAt s 1).toNat = 2 ∧ Accumulator8 s ∧ s.cfg.memBytes ≤ 2) ∧
    (let s := startIn 2 0x04#8 [(1, 0x01#8)]
     (memAt s 0).toNat * 256 + (memAt s 1).toNat = 1 ∧ Accumulator8 s ∧ 1 < s.cfg.memBytes) := by decide

/-- Pushes with S at 0: one byte, and two with the second at 0xFFFF. -/
theorem witness_PhaPushes :
    (let s := { startIn 1 0x04#8 [] with S := 0x0000#16 }
     Accumulator8 s ∧ s.S.toNat < s.cfg.memBytes) ∧
    (let s := { startIn 0x10000 0x00#8 [] with S := 0x0000#16 }
     ¬ Accumulator8 s ∧ s.S.toNat < s.cfg.memBytes ∧ (s.S.toNat + 65535) % 65536 < s.cfg.memBytes) := by decide

/-- K8 and K9. -/
theorem witness_PhaFaults :
    (let s := { startIn 0x100 0x00#8 [] with S := 0x0100#16 }
     s.cfg.memBytes ≤ s.S.toNat) ∧
    (let s := { startIn 0x100 0x00#8 [] with S := 0x0000#16 }
     ¬ Accumulator8 s ∧ s.S.toNat < s.cfg.memBytes ∧ s.cfg.memBytes ≤ (s.S.toNat + 65535) % 65536) := by decide

/-- Pulls with S at 0xFFFF, whose bytes are at 0 and 1. -/
theorem witness_PlaPulls :
    (let s := { startIn 1 0x04#8 [] with S := 0xFFFF#16 }
     Accumulator8 s ∧ (pulledS s.E s.S).toNat < s.cfg.memBytes) ∧
    (let s := { startIn 2 0x00#8 [] with S := 0xFFFF#16 }
     ¬ Accumulator8 s ∧ (s.S.toNat + 1) % 65536 < s.cfg.memBytes ∧ (s.S.toNat + 2) % 65536 < s.cfg.memBytes) := by decide

theorem witness_PlaFaults :
    (let s := { startIn 0x100 0x00#8 [] with S := 0x00FF#16 }
     s.cfg.memBytes ≤ (pulledS s.E s.S).toNat) ∧
    (let s := { startIn 1 0x00#8 [] with S := 0xFFFF#16 }
     ¬ Accumulator8 s ∧ (s.S.toNat + 1) % 65536 < s.cfg.memBytes ∧ s.cfg.memBytes ≤ (s.S.toNat + 2) % 65536) := by decide

/-- In emulation mode a byte with S at the bottom of its page; in native mode a word with S at 0. -/
theorem witness_PushPullRoundTrip :
    (let s := { start 0x00#8 [] with E := true, S := 0x0100#16 }
     Memory.wf s.mem ∧ ∃ t, pushByte 0x12#8 s = .ok t) ∧
    (let s := { start 0x00#8 [] with S := 0x0000#16 }
     Memory.wf s.mem ∧ s.E = false ∧ ∃ t, pushWord 0x1234#16 s = .ok t) :=
  ⟨⟨by decide, _, rfl⟩, ⟨by decide, rfl, _, rfl⟩⟩

theorem witness_PhaPlaRestores : StateInv pushing16 ∧ ∃ t, exec .pha pushing16 = .next t :=
  ⟨⟨by decide, by decide, by decide⟩, _, rfl⟩

/-- P5's shape: the pushed byte stands at the next PC, in each clause. -/
theorem witness_PushedByteIsFetched :
    (let s := { pushing8 with S := 0x1101#16 }
     Memory.wf s.mem ∧ Accumulator8 s ∧ ∃ t, exec .pha s = .next t ∧ (bankAddr t.PBR t.PC).toNat = s.S.toNat) ∧
    (let s := { pushing16 with S := 0x1101#16 }
     Memory.wf s.mem ∧ ¬ Accumulator8 s ∧ ∃ t, exec .pha s = .next t ∧ (bankAddr t.PBR t.PC).toNat = s.S.toNat) ∧
    (let s := { pushing16 with S := 0x0000#16, PC := 0xFFFE#16 }
     Memory.wf s.mem ∧ ¬ Accumulator8 s ∧ ∃ t, exec .pha s = .next t ∧ (bankAddr t.PBR t.PC).toNat = (s.S.toNat + 65535) % 65536) :=
  ⟨⟨by decide, by decide, _, rfl, by decide⟩, ⟨by decide, by decide, _, rfl, by decide⟩, ⟨by decide, by decide, _, rfl, by decide⟩⟩

/-- Each LDA answers a next state; 8 bits, and a machine whose loads leave the flags. -/
theorem witness_LoadFrame :
    (∃ t, exec (.ldaDp 0x10#8) loading = .next t) ∧ (∃ t, exec (.ldaDpX 0x10#8) loading = .next t) ∧
    (∃ t, exec (.ldaDpIndX 0x10#8) loading = .next t) ∧ (∃ t, exec (.ldaAbs 0xFFFF#16) loading = .next t) ∧
    (∃ t, exec (.ldaAbsX 0xFFFF#16) loading = .next t) ∧ (∃ t, exec (.ldaAbsY 0xFFFF#16) loading = .next t) ∧
    isLoad (.ldaDp 0x10#8) = true ∧ Accumulator8 loading ∧ (∃ t, exec (.ldaDp 0x10#8)
      { loading with cfg := { memBytes := 2 ^ 24, loadSetsNZ := false } } = .next t) :=
  ⟨⟨_, rfl⟩, ⟨_, rfl⟩, ⟨_, rfl⟩, ⟨_, rfl⟩, ⟨_, rfl⟩, ⟨_, rfl⟩, rfl, by decide, ⟨_, rfl⟩⟩

theorem witness_StatusFrame :
    (∃ t, exec (.rep 0xFE#8) loading = .next t) ∧ (∃ t, exec (.sep 0x7F#8) loading = .next t) ∧
    getFlag .N 0xFE#8 = false ∧ getFlag .C 0x7F#8 = false := ⟨⟨_, rfl⟩, ⟨_, rfl⟩, by decide, by decide⟩

theorem witness_PushFrame :
    (Accumulator8 pushing8 ∧ ∃ t, exec .pha pushing8 = .next t) ∧ (¬ Accumulator8 pushing16 ∧ ∃ t, exec .pha pushing16 = .next t) :=
  ⟨⟨by decide, _, rfl⟩, ⟨by decide, _, rfl⟩⟩

theorem witness_PullFrame :
    (Accumulator8 pushing8 ∧ ∃ t, exec .pla pushing8 = .next t) ∧ (∃ t, exec .pla pushing16 = .next t) ∧
    (∃ t, exec .pla { pushing8 with cfg := { memBytes := 2 ^ 24, loadSetsNZ := false } } = .next t) :=
  ⟨⟨by decide, _, rfl⟩, ⟨_, rfl⟩, ⟨_, rfl⟩⟩

/-- Two bytes from the last address of the space on. -/
theorem witness_LoaderPlacesSequence :
    Memory.wf State.reset.mem ∧ [0x01#8, 0x02#8].length ≤ 2 ^ 24 ∧
    ∀ k < [0x01#8, 0x02#8].length, ((0xFFFFFF#24).toNat + k) % 2 ^ 24 < State.reset.cfg.memBytes := by decide

/-- Each clause, with the memory ending at the byte that decides it. -/
theorem witness_OperandBytesReadOrFault :
    let at0 (n : Nat) (op : Byte) : State := { startIn n 0x00#8 [(0, op)] with PC := 0x0000#16 }
    (0 < (at0 1 0xA5#8).cfg.memBytes ∧ memAt (at0 1 0xA5#8) 0 = 0xA5#8 ∧ (at0 1 0xA5#8).cfg.memBytes ≤ 1) ∧
    (memAt (at0 1 0xBD#8) 0 = 0xBD#8 ∧ (at0 1 0xBD#8).cfg.memBytes ≤ 1) ∧
    (memAt (at0 2 0xAD#8) 0 = 0xAD#8 ∧ 1 < (at0 2 0xAD#8).cfg.memBytes ∧ (at0 2 0xAD#8).cfg.memBytes ≤ 2) ∧
    (memAt (at0 1 0x48#8) 0 = 0x48#8 ∧ 0 < (at0 1 0x48#8).cfg.memBytes) ∧
    (memAt (at0 2 0xC2#8) 0 = 0xC2#8 ∧ 1 < (at0 2 0xC2#8).cfg.memBytes) ∧
    (memAt (at0 3 0xB9#8) 0 = 0xB9#8 ∧ 1 < (at0 3 0xB9#8).cfg.memBytes ∧ 2 < (at0 3 0xB9#8).cfg.memBytes) := by decide

end Sys2Proof.Tests
end

section
/-! PROOFS. The two views of a register cell (10_state.md R21). -/

namespace Sys2Proof.Machine

@[simp] theorem loByte_setLow (r : Word) (b : Byte) : loByte (setLow r b) = b := by
  rw [setLow_eq_beWord, loByte_beWord]

@[simp] theorem hiByte_setLow (r : Word) (b : Byte) : hiByte (setLow r b) = hiByte r := by
  rw [setLow_eq_beWord, hiByte_beWord]

/-- Settles O24: an 8-bit write is the old high byte joined to the new low byte, and a word write stores the word itself in each of
the five cells, so its low byte is the word modulo 256. -/
theorem registerViewsAgree : Obligations.RegisterViewsAgree := by
  unfold Obligations.RegisterViewsAgree
  refine ⟨fun r b => ⟨loByte_setLow r b, ?_, toNat_setLow r b⟩, fun s w r hr => ?_⟩
  · rw [← toNat_hiByte, ← toNat_hiByte, hiByte_setLow]
  · obtain rfl : r = w := by simpa using hr
    exact ⟨rfl, toNat_loByte r⟩

end Sys2Proof.Machine
end

section
/-! PROOFS. Address composition and byte order (20_memory.md R41, R48). -/

namespace Sys2Proof.Machine

/-- Settles O25: the bank stands above the 16 bits of the offset, so division and remainder by 2^16 take the sum apart again. -/
theorem bankAddressComposition : Obligations.BankAddressComposition := by
  unfold Obligations.BankAddressComposition
  intro bank off
  have hoff := off.isLt
  have hsum := toNat_bankAddr bank off
  refine ⟨hsum, ?_, ?_⟩ <;> omega

/-- A word read answers `w` when the two byte reads answer the two bytes of `w`, the high byte at the lower address (R44, R48). -/
theorem memRead2_ok_iff_memRead1 {a : Address} {s : State} {w : Word} :
    memRead2 a s = .ok w ↔ memRead1 a s = .ok (hiByte w) ∧ memRead1 (nextAddr a) s = .ok (loByte w) := by
  simp only [memRead2_ok_iff, memRead1_ok_iff]
  constructor
  · rintro ⟨hhi, hlo, rfl⟩
    exact ⟨⟨hhi, hiByte_beWord _ _⟩, hlo, loByte_beWord _ _⟩
  · rintro ⟨⟨hhi, ehi⟩, hlo, elo⟩
    exact ⟨hhi, hlo, by rw [← ehi, ← elo, beWord_hi_lo]⟩

theorem map_toNat_encodeWord (w : Word) : (encodeWord w).map BitVec.toNat = [w.toNat / 256, w.toNat % 256] := by
  simp only [encodeWord, List.map_cons, List.map_nil, toNat_hiByte, toNat_loByte]

/-- Settles O28: a word read is the two byte reads at `a` and `nextAddr a`, `encodeWord` puts the same two bytes in the same order
after the opcode of each word form, and the operand fetch is the word read at `operandAddr`. -/
theorem bigEndianByteOrder : Obligations.BigEndianByteOrder := by
  unfold Obligations.BigEndianByteOrder
  refine ⟨fun s a w _ hw => ?_, fun addr i hi => ?_, fun _ => rfl⟩
  · obtain ⟨hhi, hlo⟩ := memRead2_ok_iff_memRead1.mp hw
    rw [nextAddr_eq_ofNat] at hlo
    exact ⟨hiByte w, loByte w, hhi, hlo, toNat_hiByte w, toNat_loByte w⟩
  · rcases hi with rfl | rfl | rfl <;> exact map_toNat_encodeWord addr

end Sys2Proof.Machine
end

section
/-! PROOFS. What a fetch reads: the program counter and bank, the memory and its capacity, and no mode flag (30_encoding.md R68). -/

namespace Sys2Proof.Machine

section
variable {s t : State} (hmem : t.mem = s.mem) (hcfg : t.cfg = s.cfg)
include hmem hcfg

theorem memRead1_ok_congr {a : Address} {v : Byte} : memRead1 a t = .ok v ↔ memRead1 a s = .ok v := by
  simp only [memRead1_ok_iff, inRange_iff, byteAt, hmem, hcfg]

theorem memRead2_ok_congr {a : Address} {w : Word} : memRead2 a t = .ok w ↔ memRead2 a s = .ok w := by
  simp only [memRead2_ok_iff_memRead1, memRead1_ok_congr hmem hcfg]

variable (hPBR : t.PBR = s.PBR) (hPC : t.PC = s.PC)
include hPBR hPC

theorem fetchOpcode_ok_congr {op : Byte} : fetchOpcode t = .ok op ↔ fetchOpcode s = .ok op := by
  simp only [fetchOpcode, opcodeAddr, hPBR, hPC, memRead1_ok_congr hmem hcfg]

theorem fetchOp8_ok_congr {b : Byte} : fetchOp8 t = .ok b ↔ fetchOp8 s = .ok b := by
  simp only [fetchOp8, operandAddr, hPBR, hPC, memRead1_ok_congr hmem hcfg]

theorem fetchOp16_ok_congr {w : Word} : fetchOp16 t = .ok w ↔ fetchOp16 s = .ok w := by
  simp only [fetchOp16, operandAddr, hPBR, hPC, memRead2_ok_congr hmem hcfg]

/-- States that agree where a fetch reads fetch the same instruction: the shape comes from the opcode byte alone, and each operand
form from the bytes after it. -/
theorem fetchInstr_ok_congr {i : Instr} : fetchInstr t = .ok i ↔ fetchInstr s = .ok i := by
  simp only [fetchInstr_ok_iff, fetchOpcode_ok_congr hmem hcfg hPBR hPC, fetchOp8_ok_congr hmem hcfg hPBR hPC,
    fetchOp16_ok_congr hmem hcfg hPBR hPC]

end

/-- Settles O5: a fetch reads PBR, PC, the memory and its capacity, and a change of P and E leaves all four as they are. -/
theorem modeFlagsDoNotChangeDecoding : Obligations.ModeFlagsDoNotChangeDecoding := by
  unfold Obligations.ModeFlagsDoNotChangeDecoding
  intro s p e i hfetch
  exact (fetchInstr_ok_congr (s := s) (t := { s with P := p, E := e }) rfl rfl rfl rfl).mpr hfetch

end Sys2Proof.Machine
end

section
/-! PROOFS. The encoder and the decoder are inverse (30_encoding.md R60 to R67): both are read off one relation, what an opcode's shape
makes of the operand bytes. -/

namespace Sys2Proof

/-- The instruction an opcode of this shape makes of its operand bytes (R61, R62). -/
def Shape.Makes : Shape → Instr → List Byte → Prop
  | .bare j, i, operands => i = j ∧ operands = []
  | .byteOperand mk, i, operands => ∃ b, i = mk b ∧ operands = [b]
  | .wordOperand mk, i, operands => ∃ hi lo, i = mk (Machine.beWord hi lo) ∧ operands = [hi, lo]

theorem encode_of_makes {op : Byte} {shape : Shape} {i : Instr} {operands : List Byte} (hop : decodeOpcode op = some shape)
    (hi : shape.Makes i operands) : encode i = op :: operands := by
  unfold decodeOpcode at hop
  split at hop <;> cases hop
  case h_1 | h_2 | h_11 =>
    obtain ⟨rfl, rfl⟩ := hi
    rfl
  case h_5 | h_7 | h_8 =>
    obtain ⟨hi, lo, rfl, rfl⟩ := hi
    exact congrArg _ (Machine.encodeWord_beWord hi lo)
  all_goals
    obtain ⟨b, rfl, rfl⟩ := hi
    rfl

/-- A word operand is made of its two bytes. -/
theorem makes_word (mk : Word → Instr) (w : Word) : (Shape.wordOperand mk).Makes (mk w) (encodeWord w) :=
  ⟨Machine.hiByte w, Machine.loByte w, by rw [Machine.beWord_hi_lo], rfl⟩

/-- Every instruction's opcode has the shape that makes it of its operand bytes. -/
theorem exists_shape_makes (i : Instr) : ∃ shape, decodeOpcode i.opcode = some shape ∧ shape.Makes i i.operandBytes := by
  cases i
  case pha | pla | nop => exact ⟨_, rfl, rfl, rfl⟩
  case ldaAbs addr | ldaAbsX addr | ldaAbsY addr => exact ⟨_, rfl, makes_word _ addr⟩
  all_goals exact ⟨_, rfl, _, rfl, rfl⟩

/-- What the decoder accepts: an opcode byte, and the operand bytes its shape has. -/
theorem decode_ok_iff_makes {bytes rest : List Byte} {i : Instr} :
    decode bytes = .ok (i, rest) ↔
      ∃ op operands shape, bytes = op :: operands ++ rest ∧ decodeOpcode op = some shape ∧ shape.Makes i operands := by
  constructor
  · intro h
    unfold decode at h
    split at h
    case h_1 => cases h
    case h_2 op tail =>
      split at h
      case h_1 => cases h
      case h_2 j hop =>
        cases h
        exact ⟨op, [], _, rfl, hop, rfl, rfl⟩
      case h_3 mk hop =>
        split at h <;> cases h
        case h_1 b => exact ⟨op, [b], _, rfl, hop, b, rfl, rfl⟩
      case h_4 mk hop =>
        split at h <;> cases h
        case h_1 hi lo => exact ⟨op, [hi, lo], _, rfl, hop, hi, lo, rfl, rfl⟩
  · rintro ⟨op, operands, shape, rfl, hop, hi⟩
    cases shape
    case bare j =>
      obtain ⟨rfl, rfl⟩ := hi
      simp [decode, hop]
    case byteOperand mk =>
      obtain ⟨b, rfl, rfl⟩ := hi
      simp [decode, hop]
    case wordOperand mk =>
      obtain ⟨hi, lo, rfl, rfl⟩ := hi
      simp [decode, hop]

/-- The decoder accepts exactly the encodings, whatever bytes follow. -/
theorem decode_ok_iff {bytes rest : List Byte} {i : Instr} : decode bytes = .ok (i, rest) ↔ bytes = encode i ++ rest := by
  rw [decode_ok_iff_makes]
  constructor
  · rintro ⟨op, operands, shape, rfl, hop, hi⟩
    rw [encode_of_makes hop hi]
  · rintro rfl
    obtain ⟨shape, hop, hi⟩ := exists_shape_makes i
    exact ⟨i.opcode, i.operandBytes, shape, rfl, hop, hi⟩

/-- Settles O1: the encoding starts with an opcode whose shape makes the instruction of the operand bytes that follow. -/
theorem decodeOfEncode : Obligations.DecodeOfEncode := by
  unfold Obligations.DecodeOfEncode
  intro i rest _
  exact decode_ok_iff.mpr rfl

/-- Settles O2: what a shape makes of its operand bytes encodes back to the opcode and those bytes. -/
theorem encodeOfDecode : Obligations.EncodeOfDecode := by
  unfold Obligations.EncodeOfDecode
  intro bytes rest i h
  exact decode_ok_iff.mp h

/-- The opcodes without an operand (R64, R65). -/
theorem bare_iff {op : Byte} : (∃ i, decodeOpcode op = some (.bare i)) ↔ op ∈ [0x48#8, 0x68#8, 0xEA#8] := by
  constructor
  · rintro ⟨i, h⟩
    unfold decodeOpcode at h
    split at h <;> cases h <;> decide
  · simp only [List.mem_cons, List.not_mem_nil, or_false]
    rintro (rfl | rfl | rfl) <;> exact ⟨_, rfl⟩

/-- The opcodes with an operand byte (R61, R64). -/
theorem byteOperand_iff {op : Byte} :
    (∃ mk, decodeOpcode op = some (.byteOperand mk)) ↔ op ∈ [0xA1#8, 0xA5#8, 0xB5#8, 0xC2#8, 0xE2#8] := by
  constructor
  · rintro ⟨mk, h⟩
    unfold decodeOpcode at h
    split at h <;> cases h <;> decide
  · simp only [List.mem_cons, List.not_mem_nil, or_false]
    rintro (rfl | rfl | rfl | rfl | rfl) <;> exact ⟨_, rfl⟩

/-- The opcodes with an operand word (R61, R64). -/
theorem wordOperand_iff {op : Byte} :
    (∃ mk, decodeOpcode op = some (.wordOperand mk)) ↔ op ∈ [0xAD#8, 0xB9#8, 0xBD#8] := by
  constructor
  · rintro ⟨mk, h⟩
    unfold decodeOpcode at h
    split at h <;> cases h <;> decide
  · simp only [List.mem_cons, List.not_mem_nil, or_false]
    rintro (rfl | rfl | rfl) <;> exact ⟨_, rfl⟩

/-- An opcode is illegal exactly when it has no shape (R66). -/
theorem decodeOpcode_eq_none_iff {op : Byte} : decodeOpcode op = none ↔ op ∉ Safety.legalOpcodes := by
  constructor
  · intro h
    unfold decodeOpcode at h
    split at h <;> cases h
    simp_all [Safety.legalOpcodes]
  · intro h
    unfold decodeOpcode
    split
    case h_12 => rfl
    all_goals exact absurd (by decide) h

/-- What the decoder rejects: no bytes, an opcode without a shape, or fewer bytes after the opcode than its shape has. -/
theorem decode_error_iff {bytes : List Byte} {e : DecodeError} :
    decode bytes = .error e ↔
      (bytes = [] ∧ e = .noBytes) ∨
        ∃ op rest, bytes = op :: rest ∧
          ((decodeOpcode op = none ∧ e = .unknownOpcode op) ∨
            ((∃ mk, decodeOpcode op = some (.byteOperand mk)) ∧ rest = [] ∧ e = .truncated op) ∨
            ((∃ mk, decodeOpcode op = some (.wordOperand mk)) ∧ rest.length < 2 ∧ e = .truncated op)) := by
  cases bytes with
  | nil => simp [decode, @eq_comm _ e]
  | cons op rest =>
    cases hop : decodeOpcode op with
    | none => simp [decode, hop, @eq_comm _ e]
    | some shape =>
      cases shape <;> rcases rest with _ | ⟨b, _ | ⟨c, rest⟩⟩ <;> simp [decode, hop, @eq_comm _ e]

/-- Settles O3: an opcode is rejected as unknown when it has no shape, and as truncated when fewer bytes follow than its shape has. -/
theorem decoderRejections : Obligations.DecoderRejections := by
  unfold Obligations.DecoderRejections
  refine ⟨fun op rest => ?_, fun op rest => ?_, fun bytes => ?_⟩
  · simp [decode_error_iff, decodeOpcode_eq_none_iff]
  · rw [← byteOperand_iff, ← wordOperand_iff]
    simp [decode_error_iff]
  · simp [decode_error_iff]

/-- Settles O4: nine table words, each decoded by evaluation. -/
theorem writtenWordsDecode : Obligations.WrittenWordsDecode := by
  unfold Obligations.WrittenWordsDecode
  decide

end Sys2Proof
end

section
/-! PROOFS. The flags of P, one bit each (10_state.md R24; 43_load_lda.md R116). -/

namespace Sys2Proof.Machine

open Sys2Proof.Safety

theorem flagBit_lt (f : StatusFlag) : flagBit f < 8 := by cases f <;> decide

@[simp] theorem getFlag_flagMask (f g : StatusFlag) : getFlag f (flagMask g) = decide (f = g) := by
  cases f <;> cases g <;> rfl

@[simp] theorem getFlag_or (f : StatusFlag) (p q : Byte) : getFlag f (p ||| q) = (getFlag f p || getFlag f q) :=
  BitVec.getLsbD_or

@[simp] theorem getFlag_and_not (f : StatusFlag) (p q : Byte) : getFlag f (p &&& ~~~q) = (getFlag f p && !getFlag f q) := by
  simp [getFlag, flagBit_lt]

/-- A flag after one flag was written. -/
theorem getFlag_putFlag (f g : StatusFlag) (v : Bool) (p : Byte) :
    getFlag f (putFlag g v p) = if f = g then v else getFlag f p := by
  cases v <;> by_cases hfg : f = g <;> simp [putFlag, hfg]

/-- A status byte is the sum of its flags' weights. -/
theorem toNat_eq_flags (p : Byte) :
    p.toNat = (if getFlag .N p then 1 else 0) + (if getFlag .V p then 2 else 0) + (if getFlag .M p then 4 else 0) +
      (if getFlag .X p then 8 else 0) + (if getFlag .D p then 16 else 0) + (if getFlag .I p then 32 else 0) +
      (if getFlag .Z p then 64 else 0) + (if getFlag .C p then 128 else 0) := by
  revert p
  decide

/-- Settles O29: the masks of two flags share no bit, and the eight bits with their weights make the byte. -/
theorem flagPositionsIndependent : Obligations.FlagPositionsIndependent := by
  unfold Obligations.FlagPositionsIndependent
  exact ⟨getFlag_putFlag, toNat_eq_flags⟩

/-- SetNZ writes no flag but N and Z. -/
theorem sameFlagsButNZ_writeNZ (s : State) (n z : Bool) : SameFlagsButNZ s (writeNZ n z s) := by
  intro f hN hZ
  rw [writeNZ_P]
  split
  · rw [getFlag_putFlag, getFlag_putFlag, if_neg hZ, if_neg hN]
  · rfl

end Sys2Proof.Machine
end

section
/-! PROOFS. What each kind of instruction leaves unchanged, and from it the frames and the whole-machine invariants. -/

namespace Sys2Proof.Machine

open Sys2Proof.Safety

/-- What the end of a load or a pull may change: A, and of P the flags N and Z when `LOAD_SETS_NZ` holds (R115, R116, R134). -/
structure LoadedFrom (s t : State) : Prop where
  onlyAP : t = (s.setA t.A).setP t.P
  flags : SameFlagsButNZ s t
  high : Accumulator8 s → hiByte t.A = hiByte s.A
  status : s.cfg.loadSetsNZ = false → t.P = s.P

theorem loadedFrom_writeNZ {s : State} {v : Word} (n z : Bool) (hv : Accumulator8 s → hiByte v = hiByte s.A) :
    LoadedFrom s (writeNZ n z (s.setA v)) where
  onlyAP := by rw [writeNZ_eq_setP]; rfl
  flags := sameFlagsButNZ_writeNZ (s.setA v) n z
  high := by simpa using hv
  status h := by simp [writeNZ_P, h]

theorem loadA_loadedFrom {info : Info} {s t : State} (h : loadA info s = .ok t) : LoadedFrom s t := by
  rcases loadA_ok_iff.mp h with ⟨-, -, rfl⟩ | ⟨hm, w, -, rfl⟩
  · exact loadedFrom_writeNZ _ _ fun _ => hiByte_setLow _ _
  · exact loadedFrom_writeNZ _ _ fun h8 => absurd h8 (m8_eq_false_iff.mp hm)

/-- A pull counts S up, once at 8 bits and twice at 16, and then loads. -/
theorem pullA_loadedFrom {info : Info} {s t : State} (h : pullA info s = .ok t) :
    (Accumulator8 s ∧ LoadedFrom (incS s) t) ∨ (¬ Accumulator8 s ∧ LoadedFrom (incS (incS s)) t) := by
  rcases pullA_ok_iff.mp h with ⟨hm, v, u, hu, rfl⟩ | ⟨hm, w, u, hu, rfl⟩
  · obtain ⟨-, -, rfl⟩ := pullByte_ok_iff.mp hu
    exact .inl ⟨m8_eq_true_iff.mp hm, loadedFrom_writeNZ _ _ fun _ => hiByte_setLow _ _⟩
  · obtain ⟨lo, t, hi, ht, hu, rfl⟩ := pullWord_ok_iff.mp hu
    obtain ⟨-, -, rfl⟩ := pullByte_ok_iff.mp ht
    obtain ⟨-, -, rfl⟩ := pullByte_ok_iff.mp hu
    have h16 := m8_eq_false_iff.mp hm
    exact .inr ⟨h16, loadedFrom_writeNZ _ _ fun h8 => absurd h8 h16⟩

/-- The state after a byte was pushed: the byte at 00:S, and S counted down (R128). -/
def State.pushed (s : State) (v : Byte) : State := (s.setMem (Memory.write s.mem s.S.toNat v)).setS (pushedS s.E s.S)

section
variable (s : State) (v : Byte)

@[simp] theorem State.pushed_A : (s.pushed v).A = s.A := rfl
@[simp] theorem State.pushed_P : (s.pushed v).P = s.P := rfl
@[simp] theorem State.pushed_PC : (s.pushed v).PC = s.PC := rfl
@[simp] theorem State.pushed_E : (s.pushed v).E = s.E := rfl
@[simp] theorem State.pushed_cfg : (s.pushed v).cfg = s.cfg := rfl
@[simp] theorem State.pushed_S : (s.pushed v).S = pushedS s.E s.S := rfl
@[simp] theorem State.pushed_mem : (s.pushed v).mem = Memory.write s.mem s.S.toNat v := rfl

end

/-- A push answers when the byte at 00:S is in range. -/
theorem pushByte_ok_iff_pushed {v : Byte} {s t : State} :
    pushByte v s = .ok t ↔ s.S.toNat < s.cfg.memBytes ∧ t = s.pushed v := by
  have hdec : decS (s.setMem (Memory.write s.mem s.S.toNat v)) = s.pushed v := by
    rw [decS_eq_setS, decS_S]
    rfl
  rw [pushByte_ok_iff, inRange_iff, toNat_stackAddr, hdec]

/-- A word push answers when both stack bytes are in range. -/
theorem pushWord_ok_iff_pushed {w : Word} {s t : State} :
    pushWord w s = .ok t ↔
      s.S.toNat < s.cfg.memBytes ∧ (pushedS s.E s.S).toNat < s.cfg.memBytes ∧ t = (s.pushed (hiByte w)).pushed (loByte w) := by
  simp [pushWord_ok_iff, pushByte_ok_iff_pushed, and_assoc]

/-- What PHA's execute function can do when it answers. -/
theorem pushA_ok_cases {info : Info} {s t : State} (h : pushA info s = .ok t) :
    (Accumulator8 s ∧ s.S.toNat < s.cfg.memBytes ∧ t = s.pushed (loByte s.A)) ∨
      (¬ Accumulator8 s ∧ s.S.toNat < s.cfg.memBytes ∧ (pushedS s.E s.S).toNat < s.cfg.memBytes ∧
        t = (s.pushed (hiByte s.A)).pushed (loByte s.A)) := by
  rcases pushA_ok_iff.mp h with ⟨hm, hp⟩ | ⟨hm, hp⟩
  · exact .inl ⟨m8_eq_true_iff.mp hm, pushByte_ok_iff_pushed.mp hp⟩
  · exact .inr ⟨m8_eq_false_iff.mp hm, pushWord_ok_iff_pushed.mp hp⟩

theorem exec_pha_next_iff {s t : State} : exec .pha s = .next t ↔ ∃ u, pushA accumulatorInfo s = .ok u ∧ t = advancePC 1 u := by
  simp [exec, execPha, complete_next_iff, Instr.size]

theorem exec_pla_next_iff {s t : State} : exec .pla s = .next t ↔ ∃ u, pullA accumulatorInfo s = .ok u ∧ t = advancePC 1 u := by
  simp [exec, execPla, complete_next_iff, Instr.size]

/-! ### The fields no instruction writes -/

/-- A state that differs from `s` in A, S, PC, P and memory only keeps the fixed fields. -/
theorem sameFixedFields_of_eq {s t : State} (h : t = { s with A := t.A, S := t.S, PC := t.PC, P := t.P, mem := t.mem }) :
    SameFixedFields s t := by
  rw [h]
  exact ⟨rfl, rfl, rfl, rfl, rfl, rfl, rfl, rfl⟩

theorem LoadedFrom.sameFixedFields {s t : State} (h : LoadedFrom s t) : SameFixedFields s t := by
  apply sameFixedFields_of_eq
  rw [h.onlyAP]
  rfl

theorem LoadedFrom.mem_eq {s t : State} (h : LoadedFrom s t) : t.mem = s.mem := by
  rw [h.onlyAP]
  rfl

theorem LoadedFrom.S_eq {s t : State} (h : LoadedFrom s t) : t.S = s.S := by
  rw [h.onlyAP]
  rfl

theorem LoadedFrom.PC_eq {s t : State} (h : LoadedFrom s t) : t.PC = s.PC := by
  rw [h.onlyAP]
  rfl

theorem pullA_sameFixedFields {info : Info} {s t : State} (h : pullA info s = .ok t) : SameFixedFields s t := by
  rcases pullA_loadedFrom h with ⟨-, hl⟩ | ⟨-, hl⟩ <;> exact hl.sameFixedFields

theorem pullA_mem_eq {info : Info} {s t : State} (h : pullA info s = .ok t) : t.mem = s.mem := by
  rcases pullA_loadedFrom h with ⟨-, hl⟩ | ⟨-, hl⟩ <;> exact hl.mem_eq

theorem pushA_sameFixedFields {info : Info} {s t : State} (h : pushA info s = .ok t) : SameFixedFields s t := by
  rcases pushA_ok_cases h with ⟨-, -, rfl⟩ | ⟨-, -, -, rfl⟩ <;> exact sameFixedFields_of_eq rfl

theorem exec_sameFixedFields {i : Instr} {s t : State} (h : exec i s = .next t) : SameFixedFields s t := by
  rcases exec_next_cases h with ⟨-, rfl⟩ | ⟨u, -, rfl, heffect⟩
  · exact sameFixedFields_of_eq rfl
  · have hu : SameFixedFields s u := by
      rcases heffect with ⟨-, info, hu⟩ | ⟨mask, -, rfl⟩ | ⟨mask, -, rfl⟩ | ⟨-, hu⟩ | ⟨-, hu⟩
      · exact (loadA_loadedFrom hu).sameFixedFields
      · exact sameFixedFields_of_eq rfl
      · exact sameFixedFields_of_eq rfl
      · exact pushA_sameFixedFields hu
      · exact pullA_sameFixedFields hu
    exact hu

/-- Settles O21: each instruction's effect is on A, S, PC, P and memory. -/
theorem stepKeepsFixedFields : Obligations.StepKeepsFixedFields := by
  unfold Obligations.StepKeepsFixedFields
  intro s t h
  obtain ⟨i, -, hexec⟩ := step_next_iff.mp h
  exact exec_sameFixedFields hexec

/-! ### Memory -/

/-- No instruction but PHA writes memory. -/
theorem exec_mem_eq {i : Instr} {s t : State} (h : exec i s = .next t) (hi : i ≠ .pha) : t.mem = s.mem := by
  rcases exec_next_cases h with ⟨-, rfl⟩ | ⟨u, -, rfl, heffect⟩
  · rfl
  · have hu : u.mem = s.mem := by
      rcases heffect with ⟨-, info, hu⟩ | ⟨mask, -, rfl⟩ | ⟨mask, -, rfl⟩ | ⟨rfl, -⟩ | ⟨-, hu⟩
      · exact (loadA_loadedFrom hu).mem_eq
      · rfl
      · rfl
      · exact absurd rfl hi
      · exact pullA_mem_eq hu
    exact hu

theorem stateInv_congr {s t : State} (hmem : t.mem = s.mem) (hcfg : t.cfg = s.cfg) : StateInv t ↔ StateInv s := by
  unfold StateInv
  rw [hmem, hcfg]

/-- A push to an address in range keeps the invariant. -/
theorem stateInv_pushed {s : State} (h : StateInv s) (hS : s.S.toNat < s.cfg.memBytes) (v : Byte) : StateInv (s.pushed v) := by
  obtain ⟨hwf, hbound, hcfg⟩ := h
  exact ⟨Memory.wf_write hwf, Memory.bound_write hS hbound, hcfg⟩

theorem pushA_stateInv {info : Info} {s t : State} (hs : StateInv s) (h : pushA info s = .ok t) : StateInv t := by
  rcases pushA_ok_cases h with ⟨-, hS, rfl⟩ | ⟨-, hS, hS', rfl⟩
  · exact stateInv_pushed hs hS _
  · exact stateInv_pushed (stateInv_pushed hs hS _) hS' _

/-- Settles O18: PHA writes stack bytes that are in range, and no other instruction writes memory. -/
theorem stepKeepsStateInv : Obligations.StepKeepsStateInv := by
  unfold Obligations.StepKeepsStateInv
  intro s t hs h
  obtain ⟨i, -, hexec⟩ := step_next_iff.mp h
  by_cases hi : i = .pha
  · subst hi
    obtain ⟨u, hu, rfl⟩ := exec_pha_next_iff.mp hexec
    exact (stateInv_congr (s := u) rfl rfl).mpr (pushA_stateInv hs hu)
  · obtain ⟨-, -, -, -, -, -, -, hcfg⟩ := exec_sameFixedFields hexec
    exact (stateInv_congr (exec_mem_eq hexec hi) hcfg).mpr hs

/-- Settles O19: nothing is listed in the reset state's memory, and a caller's image brings the two facts about itself. -/
theorem resetMeetsStateInv : Obligations.ResetMeetsStateInv := by
  unfold Obligations.ResetMeetsStateInv
  refine ⟨⟨Memory.wf_nil, fun c hc => ?_, by decide⟩, fun c initPC initS image hc hwf hbound => ⟨hwf, hbound, hc⟩⟩
  cases hc

theorem memAt_pushed_of_ne {s : State} {v : Byte} {a : Nat} (h : a ≠ s.S.toNat) : memAt (s.pushed v) a = memAt s a :=
  Memory.read_write_other h.symm

/-- In native mode S counts down modulo 2^16. -/
theorem pushedS_native {e : Bool} (he : e = false) (v : Word) : pushedS e v = BitVec.ofNat 16 (v.toNat + 65535) := by
  rw [he]
  rfl

theorem toNat_pushedS_native {e : Bool} (he : e = false) (v : Word) : (pushedS e v).toNat = (v.toNat + 65535) % 65536 := by
  rw [pushedS_native he, BitVec.toNat_ofNat]

/-- What a push leaves of memory: every byte but the one or two stack bytes it stores to. -/
theorem pushA_memAt {info : Info} {s t : State} (h : pushA info s = .ok t) :
    (Accumulator8 s ∧ ∀ a : Nat, a ≠ s.S.toNat → memAt t a = memAt s a) ∨
      (¬ Accumulator8 s ∧ ∀ a : Nat, a ≠ s.S.toNat → a ≠ (pushedS s.E s.S).toNat → memAt t a = memAt s a) := by
  rcases pushA_ok_cases h with ⟨h8, -, rfl⟩ | ⟨h16, -, -, rfl⟩
  · exact .inl ⟨h8, fun a ha => memAt_pushed_of_ne ha⟩
  · exact .inr ⟨h16, fun a ha ha' => (memAt_pushed_of_ne ha').trans (memAt_pushed_of_ne ha)⟩

/-- Settles O22: a step that changes a byte ran PHA, and PHA changes only its stack bytes. -/
theorem onlyPushChangesMemory : Obligations.OnlyPushChangesMemory := by
  unfold Obligations.OnlyPushChangesMemory
  intro s t a h hne
  obtain ⟨i, hfetch, hexec⟩ := step_next_iff.mp h
  by_cases hi : i = .pha
  · subst hi
    refine ⟨hfetch, ?_⟩
    obtain ⟨u, hu, rfl⟩ := exec_pha_next_iff.mp hexec
    rcases pushA_memAt hu with ⟨-, hkeep⟩ | ⟨h16, hkeep⟩
    · exact .inl (not_not.mp fun ha => hne (hkeep a ha))
    · rw [toNat_pushedS_native (native_of_not_accumulator8 h16)] at hkeep
      by_cases ha : a = s.S.toNat
      · exact .inl ha
      · exact .inr ⟨h16, not_not.mp fun ha' => hne (hkeep a ha ha')⟩
  · exact absurd (congrArg (Memory.read · a) (exec_mem_eq hexec hi)) hne

theorem hiByte_pushedS_emulation (v : Word) : hiByte (pushedS true v) = hiByte v := by
  apply BitVec.eq_of_toNat_eq
  simp only [pushedS, if_true, toNat_hiByte, BitVec.toNat_ofNat]
  omega

theorem hiByte_pulledS_emulation (v : Word) : hiByte (pulledS true v) = hiByte v := by
  apply BitVec.eq_of_toNat_eq
  simp only [pulledS, if_true, toNat_hiByte, BitVec.toNat_ofNat]
  omega

/-- In emulation mode every instruction keeps the high bytes: loads are 8 bits wide, and S counts in its low byte. -/
theorem exec_emulation_hiByte {i : Instr} {s t : State} (hE : s.E = true) (h : exec i s = .next t) :
    hiByte t.S = hiByte s.S ∧ hiByte t.A = hiByte s.A := by
  have h8 : Accumulator8 s := .inl hE
  rcases exec_next_cases h with ⟨-, rfl⟩ | ⟨u, -, rfl, heffect⟩
  · exact ⟨rfl, rfl⟩
  · have hu : hiByte u.S = hiByte s.S ∧ hiByte u.A = hiByte s.A := by
      rcases heffect with ⟨-, info, hu⟩ | ⟨mask, -, rfl⟩ | ⟨mask, -, rfl⟩ | ⟨-, hu⟩ | ⟨-, hu⟩
      · exact ⟨congrArg hiByte (loadA_loadedFrom hu).S_eq, (loadA_loadedFrom hu).high h8⟩
      · exact ⟨rfl, rfl⟩
      · exact ⟨rfl, rfl⟩
      · rcases pushA_ok_cases hu with ⟨-, -, rfl⟩ | ⟨h16, -⟩
        · rw [State.pushed_S, hE]
          exact ⟨hiByte_pushedS_emulation s.S, rfl⟩
        · exact absurd h8 h16
      · rcases pullA_loadedFrom hu with ⟨-, hl⟩ | ⟨h16, -⟩
        · rw [hl.S_eq, incS_S, hE]
          exact ⟨hiByte_pulledS_emulation s.S, hl.high h8⟩
        · exact absurd h8 h16
    exact hu

/-- Settles O23: the one instruction a step runs keeps both high bytes. -/
theorem emulationKeepsHighBytes : Obligations.EmulationKeepsHighBytes := by
  unfold Obligations.EmulationKeepsHighBytes
  intro s t hE h
  obtain ⟨i, -, hexec⟩ := step_next_iff.mp h
  exact exec_emulation_hiByte hE hexec

/-! ### Frames -/

theorem toNat_div_of_hiByte_eq {v w : Word} (h : hiByte v = hiByte w) : v.toNat / 256 = w.toNat / 256 := by
  rw [← toNat_hiByte, ← toNat_hiByte, h]

/-- An LDA that completes runs `loadA` and advances PC. -/
theorem exec_load_loadedFrom {i : Instr} {s t : State} (hi : isLoad i = true) (h : exec i s = .next t) :
    ∃ u, LoadedFrom s u ∧ t = advancePC i.size u := by
  rcases exec_next_cases h with ⟨rfl, -⟩ | ⟨u, -, rfl, heffect⟩
  · cases hi
  · rcases heffect with ⟨-, info, hu⟩ | ⟨mask, rfl, -⟩ | ⟨mask, rfl, -⟩ | ⟨rfl, -⟩ | ⟨rfl, -⟩
    · exact ⟨u, loadA_loadedFrom hu, rfl⟩
    all_goals cases hi

/-- Settles O51: a load writes A and, of P, N and Z at most, and then PC advances. -/
theorem loadFrame : Obligations.LoadFrame := by
  unfold Obligations.LoadFrame
  intro i s t hi h
  obtain ⟨u, hl, rfl⟩ := exec_load_loadedFrom hi h
  exact ⟨hl.sameFixedFields, hl.S_eq, hl.flags, fun a => congrArg (Memory.read · a) hl.mem_eq,
    fun h8 => toNat_div_of_hiByte_eq (hl.high h8), hl.status⟩

theorem exec_rep_eq (mask : Byte) (s : State) : exec (.rep mask) s = .next (advancePC 2 (clearFlags mask s)) := rfl

theorem exec_sep_eq (mask : Byte) (s : State) : exec (.sep mask) s = .next (advancePC 2 (setFlags mask s)) := rfl

/-- Settles O52: a mask bit that is 0 leaves its flag in `P & ~mask` and in `P | mask`. -/
theorem statusFrame : Obligations.StatusFrame := by
  unfold Obligations.StatusFrame
  rintro i mask s t (rfl | rfl) h
  · rw [exec_rep_eq] at h
    cases h
    refine ⟨sameFixedFields_of_eq rfl, rfl, rfl, fun _ => rfl, fun f hf => ?_⟩
    simp [advancePC, clearFlags, hf]
  · rw [exec_sep_eq] at h
    cases h
    refine ⟨sameFixedFields_of_eq rfl, rfl, rfl, fun _ => rfl, fun f hf => ?_⟩
    simp [advancePC, setFlags, hf]

theorem pushA_keeps_AP {info : Info} {s t : State} (h : pushA info s = .ok t) : t.A = s.A ∧ t.P = s.P := by
  rcases pushA_ok_cases h with ⟨-, -, rfl⟩ | ⟨-, -, -, rfl⟩ <;> exact ⟨rfl, rfl⟩

/-- Settles O53: the stack bytes are at S and at S counted down, and nothing but them, S and PC changes. -/
theorem pushFrame : Obligations.PushFrame := by
  unfold Obligations.PushFrame
  intro s t h
  obtain ⟨u, hu, rfl⟩ := exec_pha_next_iff.mp h
  obtain ⟨hA, hP⟩ := pushA_keeps_AP hu
  refine ⟨pushA_sameFixedFields (t := u) hu, hA, hP, fun h8 => ?_, fun h16 => ?_⟩ <;>
    rcases pushA_memAt hu with ⟨h8', hkeep⟩ | ⟨h16', hkeep⟩
  · rw [toNat_stackAddr]
    exact hkeep
  · exact absurd h8 h16'
  · exact absurd h8' h16
  · rw [toNat_stackAddr, toNat_stackAddr, decS_S]
    exact hkeep

/-- What PLA loads from differs from the state before in S only. -/
theorem pullA_loadedFrom_setS {info : Info} {s t : State} (h : pullA info s = .ok t) : ∃ v, LoadedFrom (s.setS v) t := by
  rcases pullA_loadedFrom h with ⟨-, hl⟩ | ⟨-, hl⟩ <;> exact ⟨_, hl⟩

/-- Settles O54: a pull is a load from a state in which only S differs. -/
theorem pullFrame : Obligations.PullFrame := by
  unfold Obligations.PullFrame
  intro s t h
  obtain ⟨u, hu, rfl⟩ := exec_pla_next_iff.mp h
  obtain ⟨v, hl⟩ := pullA_loadedFrom_setS hu
  exact ⟨hl.sameFixedFields, hl.flags, fun a => congrArg (Memory.read · a) hl.mem_eq,
    fun h8 => toNat_div_of_hiByte_eq (hl.high h8), hl.status⟩

end Sys2Proof.Machine
end

section
/-! PROOFS. The bytes a fetch reads, and an instruction placed where they stand (40_addressing.md R76; 60_exceptions.md R155). -/

namespace Sys2Proof.Machine

open Sys2Proof.Safety

/-- When the bytes of an encoding stand at PC, the fetch gives the instruction. -/
theorem fetchInstr_of_bytes {s : State} {i : Instr}
    (h : ∀ (k : Nat) (b : Byte), (encode i)[k]? = some b → memRead1 (instrByteAddr s k) s = .ok b) : fetchInstr s = .ok i := by
  obtain ⟨shape, hop, hi⟩ := exists_shape_makes i
  have henc := encode_of_makes hop hi
  refine fetchInstr_ok_iff.mpr ⟨i.opcode, h 0 i.opcode rfl, ?_⟩
  rw [henc] at h
  cases shape with
  | bare j =>
    obtain ⟨rfl, -⟩ := hi
    exact .inl hop
  | byteOperand mk =>
    obtain ⟨b, rfl, hb⟩ := hi
    exact .inr (.inl ⟨mk, b, hop, h 1 b (by simp [hb]), rfl⟩)
  | wordOperand mk =>
    obtain ⟨hi, lo, rfl, hb⟩ := hi
    refine .inr (.inr ⟨mk, _, hop, memRead2_ok_iff_memRead1.mpr ?_, rfl⟩)
    rw [hiByte_beWord, loByte_beWord]
    exact ⟨h 1 hi (by simp [hb]), h 2 lo (by simp [hb])⟩

theorem step_of_fetchInstr {s : State} {i : Instr} (h : fetchInstr s = .ok i) : step s = exec i s := by
  simp [step, h]

theorem toNat_opcodeAddr (s : State) : (instrByteAddr s 0).toNat = s.PBR.toNat * 65536 + s.PC.toNat := toNat_bankAddr _ _

theorem toNat_secondOperandAddr (s : State) :
    (instrByteAddr s 2).toNat = (s.PBR.toNat * 65536 + (s.PC.toNat + 1) % 65536 + 1) % 2 ^ 24 :=
  (toNat_nextAddr _).trans (by rw [toNat_operandAddr])

/-- Settles O6: the bytes at PC give the opcode and then the operand its shape asks for. -/
theorem stepRunsDecodedInstruction : Obligations.StepRunsDecodedInstruction := by
  unfold Obligations.StepRunsDecodedInstruction
  refine ⟨fun s i h => ?_, fun s => ⟨toNat_opcodeAddr s, toNat_operandAddr s, toNat_secondOperandAddr s⟩⟩
  have hfetch := fetchInstr_of_bytes h
  exact ⟨hfetch, step_of_fetchInstr hfetch⟩

/-! ### A placed instruction -/

/-- The three bytes of the longest instruction stand at three different addresses, over the wrap of PC and of the space too. -/
theorem instrByteAddr_ne (s : State) :
    instrByteAddr s 1 ≠ instrByteAddr s 0 ∧ instrByteAddr s 2 ≠ instrByteAddr s 0 ∧ instrByteAddr s 2 ≠ instrByteAddr s 1 := by
  have hPC := s.PC.isLt
  have hPBR := s.PBR.isLt
  have h0 := toNat_opcodeAddr s
  have h1 : (instrByteAddr s 1).toNat = _ := toNat_operandAddr s
  have h2 := toNat_secondOperandAddr s
  refine ⟨fun h => ?_, fun h => ?_, fun h => ?_⟩ <;> have := congrArg BitVec.toNat h <;> omega

@[simp] theorem State.setMem_setMem (s : State) (m n : List Host.Cell) : (s.setMem m).setMem n = s.setMem n := rfl

/-- The state with three bytes placed, as three writes. -/
theorem placeInstrBytes_three {s : State} (hr : ∀ k < 3, inRange s (instrByteAddr s k) = true) (x y z : Byte) :
    placeInstrBytes s 0 [x, y, z] s = s.setMem (Memory.write (Memory.write (Memory.write s.mem (instrByteAddr s 0).toNat x)
      (instrByteAddr s 1).toNat y) (instrByteAddr s 2).toNat z) := by
  simp [placeInstrBytes, placeByte, hr]

/-- Each of three placed bytes is read back where it was placed. -/
theorem memRead1_placeInstrBytes {s : State} (hwf : Memory.wf s.mem) (hr : ∀ k < 3, inRange s (instrByteAddr s k) = true)
    {x y z b : Byte} {k : Nat} (hk : [x, y, z][k]? = some b) :
    memRead1 (instrByteAddr s k) (placeInstrBytes s 0 [x, y, z] s) = .ok b := by
  obtain ⟨h10, h20, h21⟩ := instrByteAddr_ne s
  have hwf1 := Memory.wf_write (a := (instrByteAddr s 0).toNat) (v := x) hwf
  have hwf2 := Memory.wf_write (a := (instrByteAddr s 1).toNat) (v := y) hwf1
  have hlt : k < 3 := by
    have := (List.getElem?_eq_some_iff.mp hk).1
    exact this
  rw [placeInstrBytes_three hr, memRead1_ok_iff, inRange_setMem]
  refine ⟨hr k hlt, ?_⟩
  simp only [byteAt, State.setMem_mem, Memory.read_write hwf2, Memory.read_write hwf1, Memory.read_write hwf, BitVec.toNat_inj]
  match k, hlt with
  | 0, _ => simp_all
  | 1, _ => simp_all
  | 2, _ => simp_all

theorem decodeTableWord_eq_some_iff {nbits w : Nat} {i : Instr} :
    decodeTableWord nbits w = some i ↔ ∃ rest, tableBytes nbits w = encode i ++ rest := by
  simp only [← decode_ok_iff, decodeTableWord]
  cases h : decode (tableBytes nbits w) with
  | error e => simp
  | ok p => simp [Prod.ext_iff]

/-- Settles O7: the three placed bytes are read back at their places, and they begin with the instruction's encoding. -/
theorem placedInstructionRuns : Obligations.PlacedInstructionRuns := by
  unfold Obligations.PlacedInstructionRuns
  intro s nbits w i hwf hr hdecode
  obtain ⟨rest, hbytes⟩ := decodeTableWord_eq_some_iff.mp hdecode
  refine step_of_fetchInstr (fetchInstr_of_bytes fun k b hk => ?_)
  have hplaced : (tableBytes nbits w)[k]? = some b := by
    rw [hbytes, List.getElem?_append_left (List.getElem?_eq_some_iff.mp hk).1, hk]
  have haddr : instrByteAddr (s.withFetchWord nbits w) k = instrByteAddr s k := by
    unfold State.withFetchWord tableBytes
    rw [placeInstrBytes_three hr]
    rfl
  rw [haddr]
  exact memRead1_placeInstrBytes hwf hr hplaced

end Sys2Proof.Machine
end

section
/-! PROOFS. How a step ends: what each failure is and leaves, and the status it reports (41_dispatch_step.md R95 to R105;
60_exceptions.md R140 to R146). -/

namespace Sys2Proof.Machine

open Sys2Proof.Safety

/-! ### Failures -/

/-- The failure of an access at or above the capacity, leaving `left` (R49, R143). -/
def FaultsOutside (s left : State) (f : Fault) : Prop := ∃ a : Address, s.cfg.memBytes ≤ a.toNat ∧ f = .memoryFault a left

theorem memRead1_faultsOutside {a : Address} {s : State} {f : Fault} (h : memRead1 a s = .error f) : FaultsOutside s s f := by
  obtain ⟨hr, rfl⟩ := memRead1_error_iff.mp h
  exact ⟨a, inRange_eq_false_iff.mp hr, rfl⟩

theorem memRead2_faultsOutside {a : Address} {s : State} {f : Fault} (h : memRead2 a s = .error f) : FaultsOutside s s f := by
  rcases memRead2_error_iff.mp h with ⟨hr, rfl⟩ | ⟨-, hr, rfl⟩
  · exact ⟨a, inRange_eq_false_iff.mp hr, rfl⟩
  · exact ⟨nextAddr a, inRange_eq_false_iff.mp hr, rfl⟩

theorem loadA_faultsOutside {info : Info} {s : State} {f : Fault} (h : loadA info s = .error f) : FaultsOutside s s f := by
  rcases loadA_error_iff.mp h with ⟨-, hr, rfl⟩ | ⟨-, hread⟩
  · exact ⟨info.ea, inRange_eq_false_iff.mp hr, rfl⟩
  · exact memRead2_faultsOutside hread

theorem pushByte_faultsOutside {v : Byte} {s : State} {f : Fault} (h : pushByte v s = .error f) : FaultsOutside s s f := by
  obtain ⟨hr, rfl⟩ := pushByte_error_iff.mp h
  exact ⟨stackAddr s, inRange_eq_false_iff.mp hr, rfl⟩

theorem pullByte_faultsOutside {s : State} {f : Fault} (h : pullByte s = .error f) : FaultsOutside s (incS s) f := by
  obtain ⟨hr, rfl⟩ := pullByte_error_iff.mp h
  exact ⟨stackAddr (incS s), inRange_eq_false_iff.mp hr, rfl⟩

/-- States that differ in S and memory only. -/
def SameButStack (s t : State) : Prop := t = { s with S := t.S, mem := t.mem }

/-- A failing push may have pushed its first byte. -/
theorem pushA_faultsOutside {info : Info} {s : State} {f : Fault} (h : pushA info s = .error f) :
    ∃ left, SameButStack s left ∧ FaultsOutside s left f := by
  rcases pushA_error_iff.mp h with ⟨-, hp⟩ | ⟨-, hp⟩
  · exact ⟨s, rfl, pushByte_faultsOutside hp⟩
  · rcases pushWord_error_iff.mp hp with hp | ⟨u, hu, hp⟩
    · exact ⟨s, rfl, pushByte_faultsOutside hp⟩
    · obtain ⟨-, rfl⟩ := pushByte_ok_iff_pushed.mp hu
      exact ⟨s.pushed (hiByte s.A), rfl, pushByte_faultsOutside (s := s.pushed (hiByte s.A)) hp⟩

/-- A failing pull has counted S up to the byte it failed on. -/
theorem pullA_faultsOutside {info : Info} {s : State} {f : Fault} (h : pullA info s = .error f) :
    ∃ left, SameButStack s left ∧ FaultsOutside s left f := by
  rcases pullA_error_iff.mp h with ⟨-, hp⟩ | ⟨-, hp⟩
  · exact ⟨incS s, rfl, pullByte_faultsOutside hp⟩
  · rcases pullWord_error_iff.mp hp with hp | ⟨lo, t, ht, hp⟩
    · exact ⟨incS s, rfl, pullByte_faultsOutside hp⟩
    · obtain ⟨-, -, rfl⟩ := pullByte_ok_iff.mp ht
      exact ⟨incS (incS s), rfl, pullByte_faultsOutside hp⟩

/-- Settles O34: every resolver but Immediate and Accumulator reads its operand, and two of them then a pointer; nothing else fails. -/
theorem resolverFailsOnlyByMemory : Obligations.ResolverFailsOnlyByMemory := by
  unfold Obligations.ResolverFailsOnlyByMemory
  intro m resolve s f hm h
  change FaultsOutside s s f
  cases m <;> cases hm
  case immediate | accumulator => cases h
  case absoluteIndirectX =>
    rcases bind_error_iff.mp h with hread | ⟨w, -, hptr⟩
    · exact memRead2_faultsOutside hread
    · exact memRead2_faultsOutside (absoluteIndirectXInfo_error_iff.mp hptr)
  case directPageIndirectX =>
    rcases bind_error_iff.mp h with hread | ⟨b, -, hptr⟩
    · exact memRead1_faultsOutside hread
    · exact memRead2_faultsOutside (directPageIndirectXInfo_error_iff.mp hptr)
  case absolute | absoluteX | absoluteY | absoluteIndirect =>
    rcases bind_error_iff.mp h with hread | ⟨w, -, hinfo⟩
    · exact memRead2_faultsOutside hread
    · cases hinfo
  case directPage | directPageX | directPageY =>
    rcases bind_error_iff.mp h with hread | ⟨b, -, hinfo⟩
    · exact memRead1_faultsOutside hread
    · cases hinfo

/-- An instruction fails only by an access out of range; only PHA and PLA leave partial effects, and those in S and memory. -/
theorem exec_fault_cases {i : Instr} {s : State} {f : Fault} (h : exec i s = .fault f) :
    FaultsOutside s s f ∨ ((i = .pha ∨ i = .pla) ∧ ∃ left, SameButStack s left ∧ FaultsOutside s left f) := by
  cases i
  case nop | rep | sep => cases h
  all_goals
    simp only [exec, execPha, execPla, execLdaDpIndX, execLdaDp, execLdaAbs, execLdaDpX, execLdaAbsY, execLdaAbsX,
      complete_fault_iff] at h
    rcases h with hr | ⟨info, -, hx⟩
  case pha.inr => exact .inr ⟨.inl rfl, pushA_faultsOutside hx⟩
  case pla.inr => exact .inr ⟨.inr rfl, pullA_faultsOutside hx⟩
  case ldaDpIndX.inl => exact .inl (memRead2_faultsOutside (directPageIndirectXInfo_error_iff.mp hr))
  case ldaDpIndX.inr | ldaDp.inr | ldaAbs.inr | ldaDpX.inr | ldaAbsY.inr | ldaAbsX.inr => exact .inl (loadA_faultsOutside hx)
  all_goals cases hr

theorem exec_ne_refused (i : Instr) (s : State) (r : Refusal) : exec i s ≠ .refused r := by
  cases i <;> simp [exec, execPha, execPla, execLdaDpIndX, execLdaDp, execLdaAbs, execLdaDpX, execLdaAbsY, execLdaAbsX, execRep,
    execSep, execNop, complete_ne_refused]

/-- A fetch fails by an unknown opcode or by a byte out of range. -/
theorem fetchInstr_error_cases {s : State} {f : Fault} (h : fetchInstr s = .error f) :
    (∃ op, fetchOpcode s = .ok op ∧ op ∉ legalOpcodes ∧ f = .unknownOpcode op) ∨ FaultsOutside s s f := by
  rcases fetchInstr_error_iff.mp h with hop | ⟨op, hop, ⟨hnone, rfl⟩ | ⟨mk, -, hb⟩ | ⟨mk, -, hw⟩⟩
  · exact .inr (memRead1_faultsOutside hop)
  · exact .inl ⟨op, hop, decodeOpcode_eq_none_iff.mp hnone, rfl⟩
  · exact .inr (memRead1_faultsOutside hb)
  · exact .inr (memRead2_faultsOutside hw)

/-- How a step fails. -/
theorem step_fault_cases {s : State} {f : Fault} (h : step s = .fault f) :
    (∃ op, fetchOpcode s = .ok op ∧ op ∉ legalOpcodes ∧ f = .unknownOpcode op) ∨ FaultsOutside s s f ∨
      ((fetchInstr s = .ok .pha ∨ fetchInstr s = .ok .pla) ∧ ∃ left, SameButStack s left ∧ FaultsOutside s left f) := by
  rcases step_fault_iff.mp h with hfetch | ⟨i, hi, hexec⟩
  · rcases fetchInstr_error_cases hfetch with hop | hout
    · exact .inl hop
    · exact .inr (.inl hout)
  · rcases exec_fault_cases hexec with hout | ⟨rfl | rfl, hleft⟩
    · exact .inr (.inl hout)
    · exact .inr (.inr ⟨.inl hi, hleft⟩)
    · exact .inr (.inr ⟨.inr hi, hleft⟩)

theorem step_ne_refused (s : State) (r : Refusal) : step s ≠ .refused r := by
  intro h
  unfold step at h
  split at h
  · cases h
  · exact exec_ne_refused _ _ _ h

/-- Settles O15: every arm but the halt's is a `complete`, which never refuses. -/
theorem stepNeverRefuses : Obligations.StepNeverRefuses := by
  unfold Obligations.StepNeverRefuses
  exact ⟨step_ne_refused, exec_ne_refused⟩

/-- With the full capacity no address is out of range. -/
theorem not_faultsOutside_full {s left : State} {f : Fault} (hfull : s.cfg.memBytes = 2 ^ 24) : ¬ FaultsOutside s left f := by
  rintro ⟨a, ha, -⟩
  have := a.isLt
  omega

/-- Settles O16: an instruction's only failure, and a step's only failure but the unknown opcode, is an access out of range. -/
theorem fullMemoryNeverFaults : Obligations.FullMemoryNeverFaults := by
  unfold Obligations.FullMemoryNeverFaults
  intro s hfull
  refine ⟨fun i => ?_, ?_⟩
  · cases h : exec i s with
    | next t => exact ⟨t, rfl⟩
    | refused r => exact absurd h (exec_ne_refused i s r)
    | fault f =>
      rcases exec_fault_cases h with hout | ⟨-, left, -, hout⟩ <;> exact absurd hout (not_faultsOutside_full hfull)
  · cases h : step s with
    | next t => exact .inl ⟨t, rfl⟩
    | refused r => exact absurd h (step_ne_refused s r)
    | fault f =>
      rcases step_fault_cases h with ⟨op, -, -, rfl⟩ | hout | ⟨-, left, -, hout⟩
      · exact .inr ⟨op, rfl⟩
      all_goals exact absurd hout (not_faultsOutside_full hfull)

/-- Settles O17: the state left differs from the state before at most in S and memory, and only when PHA or PLA was running. -/
theorem memoryFaultEffects : Obligations.MemoryFaultEffects := by
  unfold Obligations.MemoryFaultEffects
  intro s left a h
  rcases step_fault_cases h with ⟨op, -, -, hf⟩ | ⟨b, hb, hf⟩ | ⟨hrun, left', hleft, b, hb, hf⟩ <;> cases hf
  · exact ⟨hb, rfl, rfl, rfl, sameFixedFields_of_eq rfl, fun _ _ => rfl⟩
  · refine ⟨hb, ?_, ?_, ?_, ?_, fun hpha hpla => absurd hrun (not_or.mpr ⟨hpha, hpla⟩)⟩
    case refine_4 => exact sameFixedFields_of_eq (by rw [hleft])
    all_goals rw [hleft]

/-! ### Statuses -/

/-- An instruction that was fetched has its own opcode at PC. -/
theorem fetchOpcode_of_fetchInstr {s : State} {i : Instr} (h : fetchInstr s = .ok i) : fetchOpcode s = .ok i.opcode := by
  have key : ∀ {op : Byte} {shape : Shape} {operands : List Byte}, decodeOpcode op = some shape → shape.Makes i operands →
      i.opcode = op := fun hop hi => List.head_eq_of_cons_eq (encode_of_makes hop hi)
  obtain ⟨op, hop, hshape⟩ := fetchInstr_ok_iff.mp h
  rw [hop]
  rcases hshape with hs | ⟨mk, b, hs, -, rfl⟩ | ⟨mk, w, hs, -, rfl⟩
  · rw [key hs ⟨rfl, rfl⟩]
  · rw [key hs ⟨b, rfl, rfl⟩]
  · rw [key hs (makes_word mk w)]

theorem opcode_eq_halt_iff {i : Instr} : i.opcode = 0xEA#8 ↔ i = .nop := by
  cases i <;> simp [Instr.opcode]

theorem fetchInstr_nop_iff {s : State} : fetchInstr s = .ok .nop ↔ fetchOpcode s = .ok 0xEA#8 := by
  constructor
  · exact fetchOpcode_of_fetchInstr
  · intro h
    exact fetchInstr_ok_iff.mpr ⟨0xEA#8, h, .inl rfl⟩

/-- The four ways a step ends, each with its status: the halt, a completed instruction, an unknown opcode, a MemoryFault. -/
theorem step_cases (s : State) :
    (fetchOpcode s = .ok 0xEA#8 ∧ step s = .next s ∧ stepStatus s = some .halted) ∨
    (fetchOpcode s ≠ .ok 0xEA#8 ∧ (∃ t, step s = .next t) ∧ stepStatus s = some .continued) ∨
    (fetchOpcode s ≠ .ok 0xEA#8 ∧ (∃ op, step s = .fault (.unknownOpcode op)) ∧ stepStatus s = some .error) ∨
    (fetchOpcode s ≠ .ok 0xEA#8 ∧ (∃ a left, step s = .fault (.memoryFault a left)) ∧ stepStatus s = none) := by
  simp only [← fetchInstr_nop_iff, ne_eq]
  cases hfetch : fetchInstr s with
  | error f =>
    rcases fetchInstr_error_cases hfetch with ⟨op, -, -, rfl⟩ | ⟨a, -, rfl⟩ <;> simp [step, stepStatus, hfetch, faultStatus]
  | ok i =>
    by_cases hi : i = .nop
    · subst hi
      simp [step, stepStatus, hfetch, exec, execNop]
    · cases hexec : exec i s with
      | next t => simp [step, stepStatus, hfetch, hexec, hi]
      | refused r => exact absurd hexec (exec_ne_refused i s r)
      | fault f =>
        rcases exec_fault_cases hexec with ⟨a, -, rfl⟩ | ⟨-, left, -, a, -, rfl⟩ <;>
          simp [step, stepStatus, hfetch, hexec, hi, faultStatus]

/-- Settles O14: the four ways a step ends exclude each other, and each has one status. -/
theorem stepStatusNumbers : Obligations.StepStatusNumbers := by
  unfold Obligations.StepStatusNumbers
  intro s
  rcases step_cases s with ⟨hop, hstep, hst⟩ | ⟨hop, ⟨t, hstep⟩, hst⟩ | ⟨hop, ⟨op, hstep⟩, hst⟩ | ⟨hop, ⟨a, left, hstep⟩, hst⟩ <;>
    simp [hop, hstep, hst, statusCode]

theorem fetchOpcode_of_inRange {s : State} (h : inRange s (bankAddr s.PBR s.PC) = true) :
    fetchOpcode s = .ok (byteAt s (bankAddr s.PBR s.PC)) := if_pos h

/-- A fetch that fails ends the step. -/
theorem step_of_fetchInstr_error {s : State} {f : Fault} (h : fetchInstr s = .error f) :
    step s = .fault f ∧ stepStatus s = faultStatus f := by
  simp [step, stepStatus, h]

/-- Settles O9: the halt is decided by the opcode byte alone, so a failing halt is a failing opcode fetch. -/
theorem haltOpcodeHalts : Obligations.HaltOpcodeHalts := by
  unfold Obligations.HaltOpcodeHalts
  refine ⟨rfl, fun s => rfl, fun table s hr hb => ?_, fun s hr => ?_⟩
  · have hop := fetchOpcode_of_inRange hr
    rw [hb] at hop
    have hfetch := fetchInstr_nop_iff.mpr hop
    exact ⟨by simp [sequencer, hop, haltOpcode], by simp [step, hfetch, exec, execNop],
      by simp [stepStatus, hfetch, exec, execNop], rfl⟩
  · have hop : fetchOpcode s = .error (.memoryFault (bankAddr s.PBR s.PC) s) := memRead1_error_iff.mpr ⟨hr, rfl⟩
    exact step_of_fetchInstr_error (fetchInstr_error_iff.mpr (.inl hop))

/-- Settles O10: an illegal opcode has no shape, so the fetch ends before an operand. -/
theorem unknownOpcodeStopsStep : Obligations.UnknownOpcodeStopsStep := by
  unfold Obligations.UnknownOpcodeStopsStep
  rintro s op hr rfl hop
  have hfetch := fetchInstr_error_iff.mpr
    (.inr ⟨_, fetchOpcode_of_inRange hr, .inl ⟨decodeOpcode_eq_none_iff.mpr hop, rfl⟩⟩)
  obtain ⟨hstep, hst⟩ := step_of_fetchInstr_error hfetch
  exact ⟨hstep, hst, rfl⟩

/-- Settles O11: over the baseline table a step fails by an unknown opcode or a MemoryFault only. -/
theorem unknownModeOnlyBeyondBaseline : Obligations.UnknownModeOnlyBeyondBaseline := by
  unfold Obligations.UnknownModeOnlyBeyondBaseline
  refine ⟨fun table s op d name hop hne hd hm => ?_, fun s m h => ?_⟩
  · have hseq : sequencer table s = .failed (.unknownMode (.unresolved name)) := by
      simp [sequencer, hop, haltOpcode, hne, hd, hm, resolver]
    exact ⟨hseq, by rw [hseq]; rfl⟩
  · rcases step_fault_cases h with ⟨op, -, -, hf⟩ | ⟨a, -, hf⟩ | ⟨-, left, -, a, -, hf⟩ <;> cases hf

end Sys2Proof.Machine
end

section
/-! PROOFS. The memory port, with addresses as numbers (20_memory.md R42 to R49). -/

namespace Sys2Proof.Machine

open Sys2Proof.Safety

theorem ofNat_mod_address (n : Nat) : BitVec.ofNat 24 (n % 2 ^ 24) = BitVec.ofNat 24 n := by
  apply BitVec.eq_of_toNat_eq
  simp

section
variable {s : State} {a : Address} {n : Nat} (ha : a.toNat = n)
include ha

theorem memRead1_of_lt (h : n < s.cfg.memBytes) : memRead1 a s = .ok (memAt s n) := by
  subst ha
  exact memRead1_ok_iff.mpr ⟨inRange_iff.mpr h, rfl⟩

theorem memRead1_of_le (h : s.cfg.memBytes ≤ n) : memRead1 a s = .error (.memoryFault (BitVec.ofNat 24 n) s) := by
  rw [← address_eq_ofNat ha]
  subst ha
  exact memRead1_error_iff.mpr ⟨inRange_eq_false_iff.mpr h, rfl⟩

theorem memWrite1_of_lt (h : n < s.cfg.memBytes) (v : Byte) : memWrite1 a v s = .ok (s.setMem (Memory.write s.mem n v)) := by
  subst ha
  exact memWrite1_ok_iff.mpr ⟨inRange_iff.mpr h, rfl⟩

theorem toNat_nextAddr_of : (nextAddr a).toNat = (n + 1) % 2 ^ 24 := by rw [toNat_nextAddr, ha]

theorem memRead2_of_lt (h : n < s.cfg.memBytes) (h' : (n + 1) % 2 ^ 24 < s.cfg.memBytes) :
    memRead2 a s = .ok (beWord (memAt s n) (memAt s ((n + 1) % 2 ^ 24))) :=
  bind_ok_iff.mpr ⟨_, memRead1_of_lt ha h, bind_ok_iff.mpr ⟨_, memRead1_of_lt (toNat_nextAddr_of ha) h', rfl⟩⟩

theorem memRead2_of_le (h : s.cfg.memBytes ≤ n) : memRead2 a s = .error (.memoryFault (BitVec.ofNat 24 n) s) :=
  bind_error_iff.mpr (.inl (memRead1_of_le ha h))

theorem memRead2_of_second_le (h : n < s.cfg.memBytes) (h' : s.cfg.memBytes ≤ (n + 1) % 2 ^ 24) :
    memRead2 a s = .error (.memoryFault (BitVec.ofNat 24 ((n + 1) % 2 ^ 24)) s) :=
  bind_error_iff.mpr (.inr ⟨_, memRead1_of_lt ha h, bind_error_iff.mpr (.inl (memRead1_of_le (toNat_nextAddr_of ha) h'))⟩)

end

/-- Settles O26: the read and the write test the same range, and the store's laws say what a write changes. -/
theorem bytePortReadsAndWrites : Obligations.BytePortReadsAndWrites := by
  unfold Obligations.BytePortReadsAndWrites
  refine fun s a v => ⟨memRead1_of_lt rfl, fun h => ?_, fun h hwf => ?_⟩
  · have hr := inRange_eq_false_iff.mpr h
    exact ⟨memRead1_error_iff.mpr ⟨hr, rfl⟩, memWrite1_error_iff.mpr ⟨hr, rfl⟩⟩
  · refine ⟨_, memWrite1_of_lt rfl h v, rfl, Memory.wf_write hwf, ?_, fun b hb => Memory.read_write_other hb.symm⟩
    exact memRead1_ok_iff.mpr ⟨inRange_iff.mpr h, (Memory.read_write_same hwf).symm⟩

/-- Settles O27: the second byte's address is the first's plus 1, modulo 2^24. -/
theorem wordReadComposition : Obligations.WordReadComposition := by
  unfold Obligations.WordReadComposition
  intro s a
  exact ⟨fun h h' => ⟨_, memRead2_of_lt rfl h h', toNat_beWord _ _⟩,
    fun h => by rw [memRead2_of_le rfl h, ← address_eq_ofNat rfl], memRead2_of_second_le rfl⟩

end Sys2Proof.Machine
end

section
/-! PROOFS. The step and the spec's own algorithm R96 (41_dispatch_step.md, section 1). -/

namespace Sys2Proof.Machine

open Sys2Proof.Safety

/-! ### The sequencer over any table -/

theorem advancePC_eq (n : Nat) (s : State) : advancePC n s = { s with PC := BitVec.ofNat 16 (s.PC.toNat + n) } := by
  rw [← add_ofNat_eq]
  rfl

/-- A resolved descriptor continues when its resolver and its execute function answer. -/
theorem runDescriptor_continued_iff {d : Descriptor} {resolve : State → Except Fault Info} {s t : State} :
    runDescriptor d resolve s = .continued t ↔
      ∃ info u, resolve s = .ok info ∧ d.execute info s = .ok u ∧ t = advancePC d.size u := by
  unfold runDescriptor
  cases resolve s with
  | error f => simp
  | ok info => cases h : d.execute info s <;> simp [h, @eq_comm _ t]

/-- Settles O12: of the sequencer's six branches one continues, and it runs the descriptor. -/
theorem sequencerInversion : Obligations.SequencerInversion := by
  unfold Obligations.SequencerInversion
  intro table s t
  constructor
  · intro h
    unfold sequencer at h
    split at h
    case h_1 => cases h
    case h_2 op hop =>
      split at h
      case isTrue => cases h
      case isFalse hne =>
        split at h
        case h_1 => cases h
        case h_2 d hd =>
          split at h
          case h_1 => cases h
          case h_2 resolve hresolve =>
            obtain ⟨info, u, hinfo, hu, rfl⟩ := runDescriptor_continued_iff.mp h
            exact ⟨op, d, resolve, info, u, hop, hne, hd, hresolve, hinfo, hu, advancePC_eq d.size u⟩
  · rintro ⟨op, d, resolve, info, u, hop, hne, hd, hresolve, hinfo, hu, rfl⟩
    have hrun := runDescriptor_continued_iff.mpr ⟨info, u, hinfo, hu, rfl⟩
    simp only [sequencer, hop, haltOpcode, if_neg hne, hd, hresolve, hrun, advancePC_eq]

/-! ### The step over decoded instructions -/

/-- The outcome of R95 that an instruction's outcome in the host's interface stands for: the halt shows its state as a next state
(assumption log 1). -/
def resultOf (i : Instr) : Host.Outcome State Fault Refusal → Option StepResult
  | .next t => some (if i = .nop then .halted else .continued t)
  | .fault f => some (.failed f)
  | .refused _ => none

/-- The sequencer's last four lines are `complete`, as a result of R95. -/
theorem resultOf_complete {i : Instr} (hi : i ≠ .nop) (d : Descriptor) (resolve : State → Except Fault Info) (s : State) :
    resultOf i (complete d.size (resolve s) d.execute s) = some (runDescriptor d resolve s) := by
  unfold complete runDescriptor
  cases resolve s with
  | error f => rfl
  | ok info => cases h : d.execute info s <;> simp [h, resultOf, hi]

/-- A fetched instruction with an operand byte was made of the byte after its opcode. -/
theorem fetchOp8_of_fetchInstr {s : State} {b : Byte} {mk : Byte → Instr} (hmk : Function.Injective mk)
    (hop : decodeOpcode (mk b).opcode = some (.byteOperand mk)) (h : fetchInstr s = .ok (mk b)) : fetchOp8 s = .ok b := by
  obtain ⟨op, hfetch, hshape⟩ := fetchInstr_ok_iff.mp h
  cases (fetchOpcode_of_fetchInstr h).symm.trans hfetch
  rw [hop] at hshape
  rcases hshape with hs | ⟨mk', c, hs, hc, heq⟩ | ⟨mk', w, hs, -, -⟩ <;> cases hs
  rw [hmk heq, hc]

/-- A fetched instruction with an operand word was made of the word after its opcode. -/
theorem fetchOp16_of_fetchInstr {s : State} {w : Word} {mk : Word → Instr} (hmk : Function.Injective mk)
    (hop : decodeOpcode (mk w).opcode = some (.wordOperand mk)) (h : fetchInstr s = .ok (mk w)) : fetchOp16 s = .ok w := by
  obtain ⟨op, hfetch, hshape⟩ := fetchInstr_ok_iff.mp h
  cases (fetchOpcode_of_fetchInstr h).symm.trans hfetch
  rw [hop] at hshape
  rcases hshape with hs | ⟨mk', c, hs, -, -⟩ | ⟨mk', v, hs, hv, heq⟩ <;> cases hs
  rw [hmk heq, hv]

/-- The Immediate address is that of the operand byte, so REP's own read of its mask is the operand fetch (R77, R112). -/
theorem repExecute_immediateInfo (s : State) :
    repExecute (immediateInfo s) s = do return clearFlags (← fetchOp8 s) s := rfl

theorem sepExecute_immediateInfo (s : State) :
    sepExecute (immediateInfo s) s = do return setFlags (← fetchOp8 s) s := rfl

/-- Every instruction but the halt is the descriptor its opcode has in the baseline table, when its bytes stand at PC. -/
theorem exec_eq_descriptor {s : State} {i : Instr} (hi : i ≠ .nop) (h : fetchInstr s = .ok i) :
    ∃ d resolve, baselineTable i.opcode = some d ∧ resolver d.mode = some resolve ∧
      exec i s = complete d.size (resolve s) d.execute s := by
  cases i
  case nop => exact absurd rfl hi
  case pha | pla => exact ⟨_, _, rfl, rfl, rfl⟩
  case rep mask =>
    refine ⟨_, _, rfl, rfl, ?_⟩
    simp only [complete, repExecute_immediateInfo, fetchOp8_of_fetchInstr (fun _ _ => Instr.rep.inj) rfl h]
    rfl
  case sep mask =>
    refine ⟨_, _, rfl, rfl, ?_⟩
    simp only [complete, sepExecute_immediateInfo, fetchOp8_of_fetchInstr (fun _ _ => Instr.sep.inj) rfl h]
    rfl
  all_goals refine ⟨_, _, rfl, rfl, ?_⟩
  case ldaDpIndX => rw [fetchOp8_of_fetchInstr (fun _ _ => Instr.ldaDpIndX.inj) rfl h]; rfl
  case ldaDp => rw [fetchOp8_of_fetchInstr (fun _ _ => Instr.ldaDp.inj) rfl h]; rfl
  case ldaDpX => rw [fetchOp8_of_fetchInstr (fun _ _ => Instr.ldaDpX.inj) rfl h]; rfl
  case ldaAbs => rw [fetchOp16_of_fetchInstr (fun _ _ => Instr.ldaAbs.inj) rfl h]; rfl
  case ldaAbsX => rw [fetchOp16_of_fetchInstr (fun _ _ => Instr.ldaAbsX.inj) rfl h]; rfl
  case ldaAbsY => rw [fetchOp16_of_fetchInstr (fun _ _ => Instr.ldaAbsY.inj) rfl h]; rfl

/-- When the bytes of an instruction stand at PC, the sequencer's result is the instruction's. -/
theorem resultOf_exec {s : State} {i : Instr} (h : fetchInstr s = .ok i) :
    resultOf i (exec i s) = some (sequencer baselineTable s) := by
  have hop := fetchOpcode_of_fetchInstr h
  by_cases hi : i = .nop
  · subst hi
    simp [exec, execNop, resultOf, sequencer, hop, haltOpcode, Instr.opcode]
  · obtain ⟨d, resolve, hd, hresolve, hexec⟩ := exec_eq_descriptor hi h
    rw [hexec, resultOf_complete hi]
    simp [sequencer, hop, haltOpcode, opcode_eq_halt_iff, hi, hd, hresolve]

/-- A byte operand out of range ends the sequencer in the resolver, or in the execute function of REP and SEP. -/
theorem sequencer_of_byte_error {s : State} {op : Byte} {mk : Byte → Instr} {f : Fault} (hfetch : fetchOpcode s = .ok op)
    (hop : decodeOpcode op = some (.byteOperand mk)) (h : fetchOp8 s = .error f) : sequencer baselineTable s = .failed f := by
  have hmem := byteOperand_iff.mp ⟨mk, hop⟩
  simp only [List.mem_cons, List.not_mem_nil, or_false] at hmem
  rcases hmem with rfl | rfl | rfl | rfl | rfl <;>
    simp [sequencer, hfetch, haltOpcode, baselineTable, resolver, runDescriptor, h, repExecute_immediateInfo,
      sepExecute_immediateInfo, bind, Except.bind]

/-- A word operand out of range ends the sequencer in the resolver. -/
theorem sequencer_of_word_error {s : State} {op : Byte} {mk : Word → Instr} {f : Fault} (hfetch : fetchOpcode s = .ok op)
    (hop : decodeOpcode op = some (.wordOperand mk)) (h : fetchOp16 s = .error f) : sequencer baselineTable s = .failed f := by
  have hmem := wordOperand_iff.mp ⟨mk, hop⟩
  simp only [List.mem_cons, List.not_mem_nil, or_false] at hmem
  rcases hmem with rfl | rfl | rfl <;>
    simp [sequencer, hfetch, haltOpcode, baselineTable, resolver, runDescriptor, h, bind, Except.bind]

/-- A fetch that fails is the sequencer's failure, wherever the sequencer reads the byte. -/
theorem sequencer_of_fetchInstr_error {s : State} {f : Fault} (h : fetchInstr s = .error f) :
    sequencer baselineTable s = .failed f := by
  rcases fetchInstr_error_iff.mp h with hop | ⟨op, hop, ⟨hnone, rfl⟩ | ⟨mk, hs, hb⟩ | ⟨mk, hs, hw⟩⟩
  · simp [sequencer, hop]
  · have hillegal := decodeOpcode_eq_none_iff.mp hnone
    have hne : op ≠ haltOpcode := fun heq => hillegal (by rw [heq]; decide)
    simp [sequencer, hop, hne, baselineTable_eq_none hillegal]
  · exact sequencer_of_byte_error hop hs hb
  · exact sequencer_of_word_error hop hs hw

/-- The step and its status show the result of R95 that the fetched instruction has. -/
theorem step_of_resultOf {s : State} {i : Instr} {r : StepResult} (hfetch : fetchInstr s = .ok i)
    (h : resultOf i (exec i s) = some r) : step s = outcomeOf s r ∧ stepStatus s = resultStatus r := by
  by_cases hi : i = .nop
  · subst hi
    cases h
    simp [step, stepStatus, hfetch, exec, execNop, outcomeOf, resultStatus]
  · cases hexec : exec i s with
    | refused r => exact absurd hexec (exec_ne_refused i s r)
    | fault f =>
      rw [hexec] at h
      cases h
      simp [step, stepStatus, hfetch, hexec, outcomeOf, resultStatus]
    | next t =>
      rw [hexec, resultOf, if_neg hi] at h
      cases h
      simp [step, stepStatus, hfetch, hexec, hi, outcomeOf, resultStatus]

/-- Settles O8: a failing fetch is the sequencer's failure, and a fetched instruction is its opcode's descriptor. -/
theorem stepRefinesSequencer : Obligations.StepRefinesSequencer := by
  unfold Obligations.StepRefinesSequencer
  intro s
  cases hfetch : fetchInstr s with
  | error f =>
    rw [sequencer_of_fetchInstr_error hfetch]
    exact step_of_fetchInstr_error hfetch
  | ok i => exact step_of_resultOf hfetch (resultOf_exec hfetch)

/-! ### The program counter -/

/-- An instruction that completes advances PC by its size; the halt does not. -/
theorem exec_next_PC {i : Instr} {s t : State} (h : exec i s = .next t) :
    t.PC = if i = .nop then s.PC else BitVec.ofNat 16 (s.PC.toNat + i.size) := by
  rcases exec_next_cases h with ⟨rfl, rfl⟩ | ⟨u, hi, rfl, heffect⟩
  · rfl
  · have hu : u.PC = s.PC := by
      rcases heffect with ⟨-, info, hu⟩ | ⟨mask, -, rfl⟩ | ⟨mask, -, rfl⟩ | ⟨-, hu⟩ | ⟨-, hu⟩
      · exact (loadA_loadedFrom hu).PC_eq
      · rfl
      · rfl
      · rcases pushA_ok_cases hu with ⟨-, -, rfl⟩ | ⟨-, -, -, rfl⟩ <;> rfl
      · rcases pullA_loadedFrom hu with ⟨-, hl⟩ | ⟨-, hl⟩ <;> exact hl.PC_eq
    rw [if_neg hi, ← hu, advancePC_eq]

theorem length_encode (i : Instr) : (encode i).length = i.size := by cases i <;> rfl

/-- Settles O13: the size an instruction declares is the length of its encoding. -/
theorem stepAdvancesPcBySize : Obligations.StepAdvancesPcBySize := by
  unfold Obligations.StepAdvancesPcBySize
  intro s t h
  obtain ⟨i, hfetch, hexec⟩ := step_next_iff.mp h
  exact ⟨i, hfetch, by rw [length_encode, exec_next_PC hexec]⟩

/-! ### Operand bytes of a step -/

/-- Settles O56: the fetch reads the opcode, then the bytes its shape has, and stops at the first that is out of range. -/
theorem operandBytesReadOrFault : Obligations.OperandBytesReadOrFault := by
  unfold Obligations.OperandBytesReadOrFault
  intro s pc first second bare byteForms wordForms hpc
  have hop : fetchOpcode s = .ok (memAt s pc) := memRead1_of_lt (toNat_opcodeAddr s) hpc
  have hfirst := toNat_operandAddr s
  refine ⟨fun hform hout => ?_, fun hform hin hout => ?_, fun hform => ?_, fun hform hin => ?_, fun hform hin hin' => ?_⟩
  · refine step_of_fetchInstr_error (fetchInstr_error_iff.mpr (.inr ⟨_, hop, .inr ?_⟩))
    rcases List.mem_append.mp hform with hform | hform
    · obtain ⟨mk, hmk⟩ := byteOperand_iff.mpr hform
      exact .inl ⟨mk, hmk, memRead1_of_le hfirst hout⟩
    · obtain ⟨mk, hmk⟩ := wordOperand_iff.mpr hform
      exact .inr ⟨mk, hmk, memRead2_of_le hfirst hout⟩
  · obtain ⟨mk, hmk⟩ := wordOperand_iff.mpr hform
    have hw := memRead2_of_second_le hfirst hin hout
    exact step_of_fetchInstr_error (fetchInstr_error_iff.mpr (.inr ⟨_, hop, .inr (.inr ⟨mk, hmk, hw⟩)⟩))
  · obtain ⟨i, hi⟩ := bare_iff.mpr hform
    have hfetch := fetchInstr_ok_iff.mpr ⟨_, hop, .inl hi⟩
    exact ⟨i, encode_of_makes hi ⟨rfl, rfl⟩, hfetch, step_of_fetchInstr hfetch⟩
  · obtain ⟨mk, hmk⟩ := byteOperand_iff.mpr hform
    have hfetch := fetchInstr_ok_iff.mpr ⟨_, hop, .inr (.inl ⟨mk, _, hmk, memRead1_of_lt hfirst hin, rfl⟩)⟩
    exact ⟨_, encode_of_makes hmk ⟨_, rfl, rfl⟩, hfetch, step_of_fetchInstr hfetch⟩
  · obtain ⟨mk, hmk⟩ := wordOperand_iff.mpr hform
    have hfetch := fetchInstr_ok_iff.mpr ⟨_, hop, .inr (.inr ⟨mk, _, hmk, memRead2_of_lt hfirst hin hin', rfl⟩)⟩
    exact ⟨_, encode_of_makes hmk ⟨_, _, rfl, rfl⟩, hfetch, step_of_fetchInstr hfetch⟩

end Sys2Proof.Machine
end

section
/-! PROOFS. The addressing modes in plain arithmetic (40_addressing.md R77 to R89), and the loads from the addresses they give
(43_load_lda.md R115 to R122). -/

namespace Sys2Proof.Machine

open Sys2Proof.Safety

/-! ### The addresses of the modes -/

theorem toNat_setWidth_address (w : Word) : (w.setWidth 24).toNat = w.toNat := by
  have := w.isLt
  rw [BitVec.toNat_setWidth]
  omega

section
variable (s : State) (op16 r : Word) (op8 : Byte)

theorem toNat_absoluteInfo_ea : (absoluteInfo op16 s).ea.toNat = s.DBR.toNat * 65536 + op16.toNat := toNat_bankAddr _ _

theorem toNat_absoluteIndexedInfo_ea :
    (absoluteIndexedInfo op16 r s).ea.toNat = (s.DBR.toNat * 65536 + op16.toNat + indexValue s r) % 2 ^ 24 := by
  simp only [absoluteIndexedInfo, BitVec.toNat_add, toNat_bankAddr, toNat_setWidth_address, toNat_idx]

theorem toNat_directPageInfo_ea : (directPageInfo op8 s).ea.toNat = (s.D.toNat + op8.toNat) % 65536 := by
  simp only [directPageInfo, BitVec.toNat_add, BitVec.toNat_setWidth]
  omega

theorem toNat_directPageIndexedInfo_ea :
    (directPageIndexedInfo op8 r s).ea.toNat = (s.D.toNat + op8.toNat + indexValue s r) % 65536 := by
  simp only [directPageIndexedInfo, BitVec.toNat_add, toNat_idx, BitVec.toNat_setWidth]
  omega

/-- Where the pointer of DirectPageIndirectX stands (R87). -/
theorem toNat_directPagePointer :
    (bankAddr 0x00#8 (s.D + s.X + op8.setWidth 16)).toNat = (s.D.toNat + s.X.toNat + op8.toNat) % 65536 := by
  simp only [toNat_bankAddr, BitVec.toNat_add, BitVec.toNat_setWidth, BitVec.toNat_ofNat]
  omega

/-- Where the pointer of AbsoluteIndirectX stands (R82). -/
theorem toNat_absolutePointer :
    (bankAddr s.PBR (op16 + idx s.X s)).toNat = s.PBR.toNat * 65536 + (op16.toNat + indexValue s s.X) % 65536 := by
  rw [toNat_bankAddr, BitVec.toNat_add, toNat_idx]

end

theorem toNat_beWord_address (hi lo : Byte) : ((beWord hi lo).setWidth 24).toNat = hi.toNat * 256 + lo.toNat := by
  rw [toNat_setWidth_address, toNat_beWord]

/-- Settles O30: neither mode reads memory, and the resolver has one case per listed mode. -/
theorem immediateAndAccumulatorResolve : Obligations.ImmediateAndAccumulatorResolve := by
  unfold Obligations.ImmediateAndAccumulatorResolve
  refine ⟨fun s => ⟨⟨_, _, rfl, rfl, toNat_operandAddr s, rfl⟩, ⟨_, _, rfl, rfl, rfl, rfl⟩⟩, fun m => ?_⟩
  cases m <;> simp [resolver]

/-- Settles O31: with the operand word read, each resolver answers, and its sum is in 24 bits. -/
theorem absoluteModesResolve : Obligations.AbsoluteModesResolve := by
  unfold Obligations.AbsoluteModesResolve
  intro s op16 h
  exact ⟨⟨_, _, rfl, bind_ok_iff.mpr ⟨op16, h, rfl⟩, toNat_absoluteInfo_ea s op16, rfl⟩,
    ⟨_, _, rfl, bind_ok_iff.mpr ⟨op16, h, rfl⟩, toNat_absoluteIndexedInfo_ea s op16 s.X, rfl⟩,
    ⟨_, _, rfl, bind_ok_iff.mpr ⟨op16, h, rfl⟩, toNat_absoluteIndexedInfo_ea s op16 s.Y, rfl⟩⟩

/-- Settles O32: with the operand byte read, each resolver answers, and its sum is in 16 bits. -/
theorem directPageModesResolve : Obligations.DirectPageModesResolve := by
  unfold Obligations.DirectPageModesResolve
  intro s op8 h
  exact ⟨⟨_, _, rfl, bind_ok_iff.mpr ⟨op8, h, rfl⟩, toNat_directPageInfo_ea s op8, rfl⟩,
    ⟨_, _, rfl, bind_ok_iff.mpr ⟨op8, h, rfl⟩, toNat_directPageIndexedInfo_ea s s.X op8, rfl⟩,
    ⟨_, _, rfl, bind_ok_iff.mpr ⟨op8, h, rfl⟩, toNat_directPageIndexedInfo_ea s s.Y op8, rfl⟩⟩

/-- A number below 2^16 has its successor below 2^24. -/
theorem succ_mod_address (n : Nat) : (n % 65536 + 1) % 2 ^ 24 = n % 65536 + 1 := by omega

/-- Settles O33: both pointer modes read a word at the pointer, and the word is the address. -/
theorem indirectModesResolve : Obligations.IndirectModesResolve := by
  unfold Obligations.IndirectModesResolve
  refine ⟨fun s op16 h => ⟨⟨_, _, rfl, bind_ok_iff.mpr ⟨op16, h, rfl⟩, toNat_setWidth_address op16, rfl⟩, fun hp hp' => ?_⟩,
    fun s op8 h hp hp' => ?_⟩
  · have hread := memRead2_of_lt (toNat_absolutePointer s op16) hp hp'
    exact ⟨_, _, rfl, bind_ok_iff.mpr ⟨op16, h, absoluteIndirectXInfo_ok_iff.mpr ⟨_, hread, rfl⟩⟩, toNat_beWord_address _ _,
      toNat_absolutePointer s op16⟩
  · rw [← succ_mod_address] at hp' ⊢
    have hread := memRead2_of_lt (toNat_directPagePointer s op8) hp hp'
    exact ⟨_, _, rfl, bind_ok_iff.mpr ⟨op8, h, directPageIndirectXInfo_ok_iff.mpr ⟨_, hread, rfl⟩⟩, toNat_beWord_address _ _, rfl⟩

/-! ### The loads -/

/-- An instruction that resolves to an address and then loads does what `LoadsFrom` says of that address. -/
theorem loadsFrom_of_complete {i : Instr} {size ea : Nat} {s : State} {r : Except Fault Info} {info : Info}
    (hexec : exec i s = complete size r loadA s) (hr : r = .ok info) (hea : info.ea.toNat = ea) : LoadsFrom i size s ea := by
  subst hr
  have hfault : ∀ {f : Fault}, loadA info s = .error f → exec i s = .fault f := fun h => by
    rw [hexec]
    exact complete_fault_iff.mpr (.inr ⟨info, rfl, h⟩)
  refine ⟨fun h8 hin => ?_, fun h16 hin hin' => ?_, fun hout => ?_, fun h16 hin hout => ?_⟩
  · rw [hexec, complete_next_iff]
    refine ⟨info, _, rfl, loadA_ok_iff.mpr (.inl ⟨m8_eq_true_iff.mpr h8, ?_, rfl⟩), ?_⟩
    · rw [inRange_iff, hea]
      exact hin
    · rw [advance_setNZ8, byteAt, hea, memAt]
  · rw [hexec, complete_next_iff]
    exact ⟨info, _, rfl, loadA_ok_iff.mpr (.inr ⟨m8_eq_false_iff.mpr h16, _, memRead2_of_lt hea hin hin', rfl⟩),
      (advance_setNZ16 _ _ _ _).symm⟩
  · apply hfault
    by_cases h8 : Accumulator8 s
    · have hr : inRange s info.ea = false := inRange_eq_false_iff.mpr (by rw [hea]; exact hout)
      exact loadA_error_iff.mpr (.inl ⟨m8_eq_true_iff.mpr h8, hr, by rw [address_eq_ofNat hea]⟩)
    · exact loadA_error_iff.mpr (.inr ⟨m8_eq_false_iff.mpr h8, memRead2_of_le hea hout⟩)
  · apply hfault
    rw [← ofNat_mod_address]
    exact loadA_error_iff.mpr (.inr ⟨m8_eq_false_iff.mpr h16, memRead2_of_second_le hea hin hout⟩)

/-- Settles O38: DirectPage's address, and the load from it. -/
theorem ldaDirectPageLoads : Obligations.LdaDirectPageLoads := by
  unfold Obligations.LdaDirectPageLoads
  exact fun s dp => loadsFrom_of_complete rfl rfl (toNat_directPageInfo_ea s dp)

/-- Settles O39: Absolute's address, and the load from it. -/
theorem ldaAbsoluteLoads : Obligations.LdaAbsoluteLoads := by
  unfold Obligations.LdaAbsoluteLoads
  exact fun s addr => loadsFrom_of_complete rfl rfl (toNat_absoluteInfo_ea s addr)

/-- Settles O40: AbsoluteX's address, and the load from it. -/
theorem ldaAbsoluteXLoads : Obligations.LdaAbsoluteXLoads := by
  unfold Obligations.LdaAbsoluteXLoads
  exact fun s addr => loadsFrom_of_complete rfl rfl (toNat_absoluteIndexedInfo_ea s addr s.X)

/-- Settles O41: AbsoluteY's address, and the load from it. -/
theorem ldaAbsoluteYLoads : Obligations.LdaAbsoluteYLoads := by
  unfold Obligations.LdaAbsoluteYLoads
  exact fun s addr => loadsFrom_of_complete rfl rfl (toNat_absoluteIndexedInfo_ea s addr s.Y)

/-- Settles O42: DirectPageX's address, and the load from it. -/
theorem ldaDirectPageXLoads : Obligations.LdaDirectPageXLoads := by
  unfold Obligations.LdaDirectPageXLoads
  exact fun s dp => loadsFrom_of_complete rfl rfl (toNat_directPageIndexedInfo_ea s s.X dp)

/-- A pointer read that fails ends `LDA ($dp,X)` before any data is read. -/
theorem exec_ldaDpIndX_of_pointer_error {s : State} {dp : Byte} {f : Fault}
    (h : memRead2 (bankAddr 0x00#8 (s.D + s.X + dp.setWidth 16)) s = .error f) : exec (.ldaDpIndX dp) s = .fault f :=
  complete_fault_iff.mpr (.inl (directPageIndirectXInfo_error_iff.mpr h))

/-- Settles O43: the pointer is read as a word, and the load is from the word. -/
theorem ldaIndexedIndirectLoads : Obligations.LdaIndexedIndirectLoads := by
  unfold Obligations.LdaIndexedIndirectLoads
  intro s dp p
  have hp := toNat_directPagePointer s dp
  refine ⟨fun hin hin' => ?_, fun hout => exec_ldaDpIndX_of_pointer_error (memRead2_of_le hp hout), fun hin hout => ?_⟩
  · have hread := memRead2_of_lt hp hin (by rw [succ_mod_address]; exact hin')
    rw [succ_mod_address] at hread
    exact loadsFrom_of_complete rfl (directPageIndirectXInfo_ok_iff.mpr ⟨_, hread, rfl⟩) (toNat_beWord_address _ _)
  · have hread := memRead2_of_second_le hp hin (by rw [succ_mod_address]; exact hout)
    rw [succ_mod_address] at hread
    exact exec_ldaDpIndX_of_pointer_error hread

end Sys2Proof.Machine
end

section
/-! PROOFS. Reset (10_state.md R33), and REP and SEP (42_status_rep_sep.md R110 to R113). -/

namespace Sys2Proof.Machine

open Sys2Proof.Safety

/-- Settles O20: the fields of `State.resetWith` as it writes them, and the widths its zero P and E select. -/
theorem resetValues : Obligations.ResetValues := by
  unfold Obligations.ResetValues
  refine ⟨fun c initPC initS image => ?_, Config.initPC, Config.initS, rfl⟩
  simp [State.resetWith, m8, x8, s8, getFlag]

/-- Settles O35: `P & ~mask`, flag by flag. -/
theorem repClearsMaskedFlags : Obligations.RepClearsMaskedFlags := by
  unfold Obligations.RepClearsMaskedFlags
  intro s mask
  exact ⟨_, by rw [exec_rep_eq, advancePC_eq]; rfl, rfl, fun f => getFlag_and_not f s.P mask⟩

/-- Settles O36: `P | mask`, flag by flag. -/
theorem sepSetsMaskedFlags : Obligations.SepSetsMaskedFlags := by
  unfold Obligations.SepSetsMaskedFlags
  intro s mask
  exact ⟨_, by rw [exec_sep_eq, advancePC_eq]; rfl, rfl, fun f => getFlag_or f s.P mask⟩

/-- Settles O37: the widths are read from P and E as they stand, and REP and SEP write P alone. -/
theorem widthChangeIsImmediate : Obligations.WidthChangeIsImmediate := by
  unfold Obligations.WidthChangeIsImmediate
  refine fun s t mask => ⟨fun h => ?_, fun h => ?_⟩
  · rw [exec_sep_eq] at h
    cases h
    refine ⟨fun hM => ?_, fun hX => ?_, rfl, rfl, sameFixedFields_of_eq rfl⟩
    · simp [m8, advancePC, setFlags, hM]
    · simp [x8, advancePC, setFlags, hX]
  · rw [exec_rep_eq] at h
    cases h
    refine ⟨fun hM => ?_, fun hX => ?_, rfl, rfl, sameFixedFields_of_eq rfl⟩
    · simp [m8, advancePC, clearFlags, hM]
    · simp [x8, advancePC, clearFlags, hX]

end Sys2Proof.Machine
end

section
/-! PROOFS. PHA and PLA in plain arithmetic, their faults and their round trip (44_stack_pha_pla.md R125 to R135). -/

namespace Sys2Proof.Machine

open Sys2Proof.Safety

/-! ### The push -/

/-- A push fails when the byte at 00:S is out of range, before anything is written. -/
theorem pushByte_of_le {s : State} (h : s.cfg.memBytes ≤ s.S.toNat) (v : Byte) :
    pushByte v s = .error (.memoryFault (BitVec.ofNat 24 s.S.toNat) s) := by
  rw [← address_eq_ofNat (toNat_stackAddr s)]
  refine pushByte_error_iff.mpr ⟨?_, rfl⟩
  rw [inRange_eq_false_iff, toNat_stackAddr]
  exact h

/-- S after two pushes in native mode. -/
theorem pushedS_pushedS_native {e : Bool} (he : e = false) (v : Word) :
    pushedS e (pushedS e v) = BitVec.ofNat 16 (v.toNat + 65534) := by
  apply BitVec.eq_of_toNat_eq
  simp only [toNat_pushedS_native he, BitVec.toNat_ofNat]
  omega

/-- Settles O44: one push at 8 bits, and at 16 bits, which is native mode, two. -/
theorem phaPushes : Obligations.PhaPushes := by
  unfold Obligations.PhaPushes
  refine fun s => ⟨fun h8 hS => ?_, fun h16 hS hS' => ?_⟩
  · have hpush : pushA accumulatorInfo s = .ok (s.pushed (loByte s.A)) :=
      pushA_ok_iff.mpr (.inl ⟨m8_eq_true_iff.mpr h8, pushByte_ok_iff_pushed.mpr ⟨hS, rfl⟩⟩)
    rw [exec_pha_next_iff, ← loByte_eq_ofNat]
    exact ⟨_, hpush, by rw [advancePC_eq]; rfl⟩
  · have hE := native_of_not_accumulator8 h16
    rw [← toNat_pushedS_native hE] at hS' ⊢
    have hpush : pushA accumulatorInfo s = .ok ((s.pushed (hiByte s.A)).pushed (loByte s.A)) :=
      pushA_ok_iff.mpr (.inr ⟨m8_eq_false_iff.mpr h16, pushWord_ok_iff_pushed.mpr ⟨hS, hS', rfl⟩⟩)
    rw [exec_pha_next_iff, ← pushedS_pushedS_native hE, ← loByte_eq_ofNat, ← hiByte_eq_ofNat]
    exact ⟨_, hpush, by rw [advancePC_eq]; rfl⟩

theorem exec_pha_of_pushA_error {s : State} {f : Fault} (h : pushA accumulatorInfo s = .error f) : exec .pha s = .fault f :=
  complete_fault_iff.mpr (.inr ⟨_, rfl, h⟩)

/-- Settles O45: the first push fails before it writes, and the second after the first is done. -/
theorem phaFaults : Obligations.PhaFaults := by
  unfold Obligations.PhaFaults
  refine fun s => ⟨fun hS => exec_pha_of_pushA_error (pushA_error_iff.mpr ?_), fun h16 hS hS' =>
    exec_pha_of_pushA_error (pushA_error_iff.mpr (.inr ⟨m8_eq_false_iff.mpr h16, ?_⟩))⟩
  · cases hm : m8 s with
    | true => exact .inl ⟨rfl, pushByte_of_le hS _⟩
    | false => exact .inr ⟨rfl, pushWord_error_iff.mpr (.inl (pushByte_of_le hS _))⟩
  · have hE := native_of_not_accumulator8 h16
    have hfirst : pushByte (hiByte s.A) s = .ok (s.pushed (hiByte s.A)) := pushByte_ok_iff_pushed.mpr ⟨hS, rfl⟩
    rw [← toNat_pushedS_native hE] at hS' ⊢
    rw [← pushedS_native hE, ← hiByte_eq_ofNat]
    exact pushWord_error_iff.mpr (.inr ⟨_, hfirst, pushByte_of_le (s := s.pushed (hiByte s.A)) hS' _⟩)

/-! ### The pull -/

/-- The state after S counted up for a pull (R129). -/
def State.pulled (s : State) : State := s.setS (pulledS s.E s.S)

theorem incS_eq_pulled (s : State) : incS s = s.pulled := by
  rw [incS_eq_setS, incS_S]
  rfl

theorem toNat_stackAddr_incS (s : State) : (stackAddr (incS s)).toNat = (pulledS s.E s.S).toNat := by
  rw [toNat_stackAddr, incS_S]

section
variable {s : State}

theorem pullByte_of_lt (h : (pulledS s.E s.S).toNat < s.cfg.memBytes) :
    pullByte s = .ok (memAt s (pulledS s.E s.S).toNat, s.pulled) := by
  refine pullByte_ok_iff.mpr ⟨?_, ?_, (incS_eq_pulled s).symm⟩
  · rw [inRange_iff, toNat_stackAddr_incS]
    exact h
  · rw [byteAt, toNat_stackAddr_incS, memAt]

/-- A pull fails when the byte is out of range, with S counted up. -/
theorem pullByte_of_le (h : s.cfg.memBytes ≤ (pulledS s.E s.S).toNat) :
    pullByte s = .error (.memoryFault (BitVec.ofNat 24 (pulledS s.E s.S).toNat) s.pulled) := by
  rw [← address_eq_ofNat (toNat_stackAddr_incS s), ← incS_eq_pulled]
  refine pullByte_error_iff.mpr ⟨?_, rfl⟩
  rw [inRange_eq_false_iff, toNat_stackAddr_incS]
  exact h

theorem pullWord_of_lt (h : (pulledS s.E s.S).toNat < s.cfg.memBytes)
    (h' : (pulledS s.E (pulledS s.E s.S)).toNat < s.cfg.memBytes) :
    pullWord s = .ok (beWord (memAt s (pulledS s.E (pulledS s.E s.S)).toNat) (memAt s (pulledS s.E s.S).toNat), s.pulled.pulled) :=
  pullWord_ok_iff.mpr ⟨_, _, _, pullByte_of_lt h, pullByte_of_lt (s := s.pulled) h', rfl⟩

end

section
variable {e : Bool} (he : e = false) (v : Word)
include he

theorem pulledS_native : pulledS e v = BitVec.ofNat 16 (v.toNat + 1) := by
  rw [he]
  rfl

theorem toNat_pulledS_native : (pulledS e v).toNat = (v.toNat + 1) % 65536 := by
  rw [pulledS_native he, BitVec.toNat_ofNat]

/-- S after two pulls in native mode. -/
theorem pulledS_pulledS_native : pulledS e (pulledS e v) = BitVec.ofNat 16 (v.toNat + 2) := by
  apply BitVec.eq_of_toNat_eq
  simp only [toNat_pulledS_native he, BitVec.toNat_ofNat]
  omega

theorem toNat_pulledS_pulledS_native : (pulledS e (pulledS e v)).toNat = (v.toNat + 2) % 65536 := by
  rw [pulledS_pulledS_native he, BitVec.toNat_ofNat]

end

/-- At 8 bits PLA pulls a byte and ends like an 8-bit load. -/
theorem exec_pla_of_pullByte {s t : State} {v : Byte} (h8 : Accumulator8 s) (h : pullByte s = .ok (v, t)) :
    exec .pla s = .next (afterLoad8 t v 1) := by
  rw [exec_pla_next_iff]
  exact ⟨_, pullA_ok_iff.mpr (.inl ⟨m8_eq_true_iff.mpr h8, _, _, h, rfl⟩), (advance_setNZ8 t v 1).symm⟩

/-- At 16 bits PLA pulls a word and ends like a 16-bit load. -/
theorem exec_pla_of_pullWord {s t : State} {hi lo : Byte} (h16 : ¬ Accumulator8 s) (h : pullWord s = .ok (beWord hi lo, t)) :
    exec .pla s = .next (afterLoad16 t hi lo 1) := by
  rw [exec_pla_next_iff]
  exact ⟨_, pullA_ok_iff.mpr (.inr ⟨m8_eq_false_iff.mpr h16, _, _, h, rfl⟩), (advance_setNZ16 t hi lo 1).symm⟩

/-- Settles O46: one pull at 8 bits, and at 16 bits, which is native mode, two. -/
theorem plaPulls : Obligations.PlaPulls := by
  unfold Obligations.PlaPulls
  refine fun s => ⟨fun h8 hin => exec_pla_of_pullByte h8 (pullByte_of_lt hin), fun h16 hin hin' => ?_⟩
  have hE := native_of_not_accumulator8 h16
  rw [← toNat_pulledS_native hE] at hin ⊢
  rw [← toNat_pulledS_pulledS_native hE] at hin' ⊢
  rw [← pulledS_pulledS_native hE]
  exact exec_pla_of_pullWord h16 (pullWord_of_lt hin hin')

theorem exec_pla_of_pullA_error {s : State} {f : Fault} (h : pullA accumulatorInfo s = .error f) : exec .pla s = .fault f :=
  complete_fault_iff.mpr (.inr ⟨_, rfl, h⟩)

/-- Settles O47: a pull counts S up before it reads. -/
theorem plaFaults : Obligations.PlaFaults := by
  unfold Obligations.PlaFaults
  refine fun s => ⟨fun hout => exec_pla_of_pullA_error (pullA_error_iff.mpr ?_), fun h16 hin hout =>
    exec_pla_of_pullA_error (pullA_error_iff.mpr (.inr ⟨m8_eq_false_iff.mpr h16, ?_⟩))⟩
  · cases hm : m8 s with
    | true => exact .inl ⟨rfl, pullByte_of_le hout⟩
    | false => exact .inr ⟨rfl, pullWord_error_iff.mpr (.inl (pullByte_of_le hout))⟩
  · have hE := native_of_not_accumulator8 h16
    rw [← toNat_pulledS_native hE] at hin
    rw [← toNat_pulledS_pulledS_native hE] at hout ⊢
    rw [← pulledS_pulledS_native hE]
    exact pullWord_error_iff.mpr (.inr ⟨_, _, pullByte_of_lt hin, pullByte_of_le (s := s.pulled) hout⟩)

/-! ### The round trip -/

/-- A pull undoes what a push did to S, in either mode. -/
theorem pulledS_pushedS (e : Bool) (v : Word) : pulledS e (pushedS e v) = v := by
  have := v.isLt
  apply BitVec.eq_of_toNat_eq
  cases e <;> simp only [pulledS, pushedS, if_true, Bool.false_eq_true, if_false, BitVec.toNat_ofNat] <;> omega

section
variable {s : State} (hwf : Memory.wf s.mem)
include hwf

theorem memAt_pushed_same (v : Byte) : memAt (s.pushed v) s.S.toNat = v := Memory.read_write_same hwf

/-- The byte pushed second stands at S counted down. -/
theorem memAt_pushed_pushed_second (v w : Byte) : memAt ((s.pushed v).pushed w) (pushedS s.E s.S).toNat = w :=
  memAt_pushed_same (s := s.pushed v) (Memory.wf_write hwf) w

/-- In native mode the second byte of a push leaves the first. -/
theorem memAt_pushed_pushed_first (hE : s.E = false) (v w : Byte) : memAt ((s.pushed v).pushed w) s.S.toNat = v := by
  rw [memAt_pushed_of_ne, memAt_pushed_same hwf]
  rw [State.pushed_S, toNat_pushedS_native hE]
  omega

/-- A pushed byte is pulled back, with S as before the push. -/
theorem pullByte_pushed (hin : s.S.toNat < s.cfg.memBytes) (v : Byte) :
    pullByte (s.pushed v) = .ok (v, (s.pushed v).setS s.S) := by
  have hS : pulledS (s.pushed v).E (s.pushed v).S = s.S := pulledS_pushedS s.E s.S
  have hpull := pullByte_of_lt (s := s.pushed v) (by rw [hS]; exact hin)
  rw [State.pulled, hS, memAt_pushed_same hwf] at hpull
  exact hpull

/-- The two bytes of a pushed word are pulled back, with S as before the push. -/
theorem pullWord_pushed (hE : s.E = false) (hin : s.S.toNat < s.cfg.memBytes) (hin' : (pushedS s.E s.S).toNat < s.cfg.memBytes)
    (hi lo : Byte) :
    pullWord ((s.pushed hi).pushed lo) = .ok (beWord hi lo, ((s.pushed hi).pushed lo).setS s.S) := by
  generalize ht : (s.pushed hi).pushed lo = t
  have hcfg : t.cfg = s.cfg := by rw [← ht]; rfl
  have hS : pulledS t.E t.S = pushedS s.E s.S := by rw [← ht]; exact pulledS_pushedS s.E (pushedS s.E s.S)
  have hS' : pulledS t.E (pulledS t.E t.S) = s.S := by rw [hS, ← ht]; exact pulledS_pushedS s.E s.S
  have hlo : memAt t (pushedS s.E s.S).toNat = lo := by rw [← ht]; exact memAt_pushed_pushed_second hwf hi lo
  have hhi : memAt t s.S.toNat = hi := by rw [← ht]; exact memAt_pushed_pushed_first hwf hE hi lo
  have hpull := pullWord_of_lt (s := t) (by rw [hS, hcfg]; exact hin') (by rw [hS', hcfg]; exact hin)
  rw [hS', hS, hlo, hhi] at hpull
  rw [hpull, ← hS']
  rfl

end

/-- Settles O48: the pulls read back the bytes the pushes stored, in the reverse order. -/
theorem pushPullRoundTrip : Obligations.PushPullRoundTrip := by
  unfold Obligations.PushPullRoundTrip
  refine ⟨fun s t b hwf h => ?_, fun s t w hwf hE h => ?_⟩
  · obtain ⟨hin, rfl⟩ := pushByte_ok_iff_pushed.mp h
    exact ⟨_, pullByte_pushed hwf hin b, rfl⟩
  · obtain ⟨hin, hin', rfl⟩ := pushWord_ok_iff_pushed.mp h
    have hpull := pullWord_pushed hwf hE hin hin' (hiByte w) (loByte w)
    rw [beWord_hi_lo] at hpull
    exact ⟨_, hpull, rfl⟩

/-- What PHA leaves when it completes; PC advances without a trace in the push. -/
theorem exec_pha_next_cases {s t : State} (h : exec .pha s = .next t) :
    (Accumulator8 s ∧ s.S.toNat < s.cfg.memBytes ∧ t = (advancePC 1 s).pushed (loByte s.A)) ∨
      (¬ Accumulator8 s ∧ s.S.toNat < s.cfg.memBytes ∧ (pushedS s.E s.S).toNat < s.cfg.memBytes ∧
        t = ((advancePC 1 s).pushed (hiByte s.A)).pushed (loByte s.A)) := by
  obtain ⟨u, hu, rfl⟩ := exec_pha_next_iff.mp h
  rcases pushA_ok_cases hu with ⟨h8, hin, rfl⟩ | ⟨h16, hin, hin', rfl⟩
  · exact .inl ⟨h8, hin, rfl⟩
  · exact .inr ⟨h16, hin, hin', rfl⟩

theorem ofNat_succ_toNat_succ (v : Word) : BitVec.ofNat 16 ((v + 1#16).toNat + 1) = BitVec.ofNat 16 (v.toNat + 2) := by
  apply BitVec.eq_of_toNat_eq
  simp only [BitVec.toNat_ofNat, BitVec.toNat_add]
  omega

/-- Settles O49: PLA pulls back what PHA pushed, at the same width, since neither M nor E has changed. -/
theorem phaPlaRestores : Obligations.PhaPlaRestores := by
  unfold Obligations.PhaPlaRestores
  rintro s t ⟨hwf, -, -⟩ h
  rcases exec_pha_next_cases h with ⟨h8, hin, rfl⟩ | ⟨h16, hin, hin', rfl⟩
  · have hpull := pullByte_pushed (s := advancePC 1 s) hwf hin (loByte s.A)
    refine ⟨_, exec_pla_of_pullByte h8 hpull, ?_, rfl, rfl, ofNat_succ_toNat_succ s.PC⟩
    exact (setLow_eq_ofNat s.A (loByte s.A)).symm.trans (by rw [setLow_eq_beWord, beWord_hi_lo])
  · have hpull := pullWord_pushed (s := advancePC 1 s) hwf (native_of_not_accumulator8 h16) hin hin' (hiByte s.A) (loByte s.A)
    refine ⟨_, exec_pla_of_pullWord h16 hpull, ?_, rfl, rfl, ofNat_succ_toNat_succ s.PC⟩
    exact (beWord_eq_ofNat (hiByte s.A) (loByte s.A)).symm.trans (beWord_hi_lo s.A)

theorem fetchOpcode_of_lt {s : State} {n : Nat} (haddr : (bankAddr s.PBR s.PC).toNat = n) (hin : n < s.cfg.memBytes) :
    fetchOpcode s = .ok (memAt s n) := memRead1_of_lt haddr hin

/-- Settles O50: the fetch reads memory as the push left it. -/
theorem pushedByteIsFetched : Obligations.PushedByteIsFetched := by
  unfold Obligations.PushedByteIsFetched
  intro s t hwf h
  rw [← loByte_eq_ofNat, ← hiByte_eq_ofNat]
  rcases exec_pha_next_cases h with ⟨h8, hin, rfl⟩ | ⟨h16, hin, hin', rfl⟩
  · refine ⟨fun _ haddr => ?_, fun h16 => absurd h8 h16, fun h16 => absurd h8 h16⟩
    exact (fetchOpcode_of_lt haddr hin).trans (congrArg Except.ok (memAt_pushed_same (s := advancePC 1 s) hwf _))
  · have hE := native_of_not_accumulator8 h16
    rw [← toNat_pushedS_native hE]
    refine ⟨fun h8 => absurd h8 h16, fun _ haddr => ?_, fun _ haddr => ?_⟩
    · exact (fetchOpcode_of_lt haddr hin).trans (congrArg Except.ok (memAt_pushed_pushed_first (s := advancePC 1 s) hwf hE _ _))
    · exact (fetchOpcode_of_lt haddr hin').trans (congrArg Except.ok (memAt_pushed_pushed_second (s := advancePC 1 s) hwf _ _))

end Sys2Proof.Machine
end

section
/-! PROOFS. The host's loader (70_reset_and_hazards.md R162). -/

namespace Sys2Proof.Machine

open Sys2Proof.Safety

/-- The k-th address from the next address is the one after the k-th from the first, over the wrap of the space too. -/
theorem nextAddr_add_mod (a : Address) (k : Nat) : ((nextAddr a).toNat + k) % 2 ^ 24 = (a.toNat + (k + 1)) % 2 ^ 24 := by
  rw [toNat_nextAddr]
  omega

theorem toNat_add_zero_mod (a : Address) : (a.toNat + 0) % 2 ^ 24 = a.toNat := Nat.mod_eq_of_lt a.isLt

/-- Settles O55, by induction on the bytes: the rest of the sequence, shorter than the space, does not come back to the first
address. -/
theorem loaderPlacesSequence : Obligations.LoaderPlacesSequence := by
  unfold Obligations.LoaderPlacesSequence
  intro a bytes
  induction bytes generalizing a with
  | nil =>
    intro s _ _ _
    exact ⟨s, rfl, rfl, fun k b hk => by simp at hk, fun _ _ => rfl⟩
  | cons v rest ih =>
    intro s hwf hlen hin
    rw [List.length_cons] at hlen hin
    have hfirst := hin 0 (by omega)
    rw [toNat_add_zero_mod] at hfirst
    obtain ⟨t, hload, ht, hplaced, hkept⟩ := ih (nextAddr a) (s.setMem (Memory.write s.mem a.toNat v)) (Memory.wf_write hwf)
      (by omega) (fun k hk => by rw [nextAddr_add_mod]; exact hin (k + 1) (by omega))
    refine ⟨t, ?_, by rw [ht]; rfl, fun k b hk => ?_, fun b hb => ?_⟩
    · rw [loadSequence, memWrite1_of_lt rfl hfirst]
      exact hload
    · cases k with
      | zero =>
        cases hk
        rw [toNat_add_zero_mod, hkept]
        · exact Memory.read_write_same hwf
        · intro k hk
          have := a.isLt
          rw [nextAddr_add_mod]
          omega
      | succ k =>
        rw [← nextAddr_add_mod]
        exact hplaced k b hk
    · rw [hkept b fun k hk => by rw [nextAddr_add_mod]; exact hb (k + 1) (by rw [List.length_cons]; omega)]
      have hne := hb 0 (by simp)
      rw [toNat_add_zero_mod] at hne
      exact Memory.read_write_other hne

end Sys2Proof.Machine
end
